-- ==== Sys2Proof/Word.lean ====
section
/-! DEFINITION. The word types of the CORE (spec/00_scope.md R5, R6): a byte, and the 9-bit
word that PC and the fault register's address fields are held in. Every value is unsigned. -/

namespace Sys2Proof

/-- A memory cell, a general register, FL, an opcode or an operand byte (R5: `CELL_BITS`,
`XLEN` and `FL_BITS` are 8; R6: every such value is an unsigned integer from 0 to 255). -/
abbrev Byte := BitVec 8

/-- The 9-bit word of PC, `fault.pc` and `fault.info` (R5: `PC_BITS` is 9; R24, R34). -/
abbrev PcWord := BitVec 9

end Sys2Proof
end

