-- ==== Sys2Proof/Machine/Flags.lean ====
section
/-! DEFINITION. The flags register FL: its bits (spec/10_state.md R29), the value CMP computes
(spec/41_alu.md R133) and the two conditions that read it (spec/43_control.md R162, R163). -/

namespace Sys2Proof.Machine

/-- FL with E alone set: Equal, bit 0 (R29, the spec's decision D4). -/
def flagE : Byte := 0x01#8

/-- FL with G alone set: Greater-than, bit 1 (R29, the spec's decision D4). -/
def flagG : Byte := 0x02#8

/-- FL with L alone set: Less-than, bit 2 (R29, the spec's decision D4). -/
def flagL : Byte := 0x04#8

/-- The value CMP writes to all eight bits of FL: the unsigned comparison of the two register
values (R133). -/
def compareFlags (x y : Byte) : Byte :=
  if x.toNat = y.toNat then flagE
  else if x.toNat < y.toNat then flagL
  else flagG

/-- JEQ's condition: `fl[0] = 1` (R162). -/
def equalSet (fl : Byte) : Bool := fl.getLsbD 0

/-- JNE's condition: the whole byte is zero, "not merely not equal" (R163). -/
def flagsClear (fl : Byte) : Bool := decide (fl = 0x00#8)

end Sys2Proof.Machine
end

