-- ==== Sys2Proof/Config.lean ====
section
/-! DEFINITION. The implementation parameters of spec/00_scope.md R5, and the one value the
spec leaves open (which is the Loader's, not the engine's). R119: the engine has "no value left
open", so there is no free value in the machine's step. -/

namespace Sys2Proof.Config

/-- `MEM_SIZE`: the number of memory cells; valid addresses are 0 to 255 (R5, R50). -/
abbrev memSize : Nat := 256

/-- `NREGS`: the number of general registers (R5, R21). -/
abbrev nRegs : Nat := 8

/-- `ENTRY_PC`: the value of PC at reset (R5, R28). -/
abbrev entryPc : PcWord := 0#9

/-- `LOAD_BASE`: the address of the first byte of the program image (R5, R221). -/
abbrev loadBase : Nat := 0

/-- `FETCH_WINDOW`: the largest instruction width in bytes (R5, R80). -/
abbrev fetchWindow : Nat := 3

/-- What the Loader makes of a token that is written with base-2 digits and the characters
`b`, `B`, `_`, `+`, `-` and is not digits alone: N19 of spec/91_not_in_source.md says it is not
stated whether a literal may carry a prefix, underscores or a sign. A free value, log entry 8:
`none` is a parse failure, `some v` a literal of value `v`. -/
opaque unstatedLiteral : List Char → Option Nat

end Sys2Proof.Config
end

