-- ==== Sys2Proof/Syntax.lean ====
section
/-! DEFINITION. The instruction set: one constructor for each of the eight rows of
spec/opcode_table.json (spec/30_encoding.md R82). -/

namespace Sys2Proof

/-- An instruction as the decoder reads it. A register operand is the WHOLE operand byte
(R84: "with no masking to three bits"): a byte above 7 is checked only when the register is
accessed, so it is part of the instruction and not refused by the decoder. -/
inductive Instr where
  /-- `HLT` (R160). -/
  | hlt
  /-- `LDI Ra,imm` (R150): destination register, immediate byte. -/
  | ldi (a imm : Byte)
  /-- `PRN Ra` (R151): source register. -/
  | prn (a : Byte)
  /-- `MUL Ra,Rb` (R132): destination and first source, second source. -/
  | mul (a b : Byte)
  /-- `CMP Ra,Rb` (R133): first source, second source. -/
  | cmp (a b : Byte)
  /-- `JEQ Ra` (R162): the register that holds the target. -/
  | jeq (a : Byte)
  /-- `JNE Ra` (R163): the register that holds the target. -/
  | jne (a : Byte)
  /-- `JMP Ra` (R161): the register that holds the target. -/
  | jmp (a : Byte)
deriving DecidableEq, Repr

end Sys2Proof
end

