-- ==== Sys2Proof/Machine/State.lean ====
section
/-! DEFINITION. The whole architectural state of spec/10_state.md R20, as plain data, the
reasons a step can stop, and the state after reset (R40 with an empty image). -/

namespace Sys2Proof.Machine

/-- The run state (R33). `halted` is terminal. -/
inductive RunState where
  | running
  | halted
deriving DecidableEq, Repr

/-- The eight values of the 3-bit field `fault.cause` (R34, R180). The CORE writes
`unknownInstruction`, `addressFault` and `registerIndexFault` only; `sourceNotFound`,
`malformedProgram` and `programTooLarge` are the host Loader's (R192); no tag of the ALU raises
`unsupportedAluOp` (R135, R184). -/
inductive FaultCause where
  /-- 0: no fault, the reset value and the value after a normal HLT. -/
  | none
  /-- 1: the decode of an opcode byte outside the table (R181). -/
  | unknownInstruction
  /-- 2: host only, the source cannot be opened (R192). -/
  | sourceNotFound
  /-- 3: a memory address outside 0 to 255 (R182). -/
  | addressFault
  /-- 4: a register operand above 7 is accessed (R183). -/
  | registerIndexFault
  /-- 5: an ALU operation tag outside ADD, MUL, CMP; nothing raises it (R184). -/
  | unsupportedAluOp
  /-- 6: host only, a line of the source does not parse (R192). -/
  | malformedProgram
  /-- 7: host only, the image is longer than memory (R192). -/
  | programTooLarge
deriving DecidableEq, Repr

/-- The fault register (R34). -/
structure FaultReg where
  /-- Why the engine stopped; `none` when it did not stop abnormally. -/
  cause : FaultCause
  /-- The value of `pc` at the start of the faulting step. -/
  pc : PcWord
  /-- The opcode byte, the out-of-range address or the register index. -/
  info : PcWord
deriving DecidableEq, Repr

/-- What `raise <Fault>(info)` carries (R8): the cause and the offending value. -/
structure Raised where
  cause : FaultCause
  info : Nat
deriving DecidableEq, Repr

/-- Memory as the cells that do not hold the reset value: addresses strictly rising, every one
below 256, and no cell holding 0x00, which is what an unlisted address reads as
(`Memory.unlisted`, R36). `Memory.wf` in Machine/Ops.lean says the form holds. -/
abbrev Memory := List Host.Cell

/-- The architectural state `(x[0..7], pc, fl, rs, fault, mem[0..255], out)` (R20). "There is no
other state." -/
structure State where
  /-- `x[0]` to `x[7]`: the general registers R0 to R7 (R21). -/
  regs : Vector Byte 8
  /-- The program counter, 0 to 256 (R24). -/
  pc : PcWord
  /-- The flags register: bits 7:3 zero, bit 2 L, bit 1 G, bit 0 E (R29). -/
  fl : Byte
  /-- The run state (R33). -/
  rs : RunState
  /-- The fault register (R34). -/
  fault : FaultReg
  /-- The 256 memory cells (R36, R50). -/
  mem : Memory
  /-- The output trace, oldest byte first (R35). -/
  out : List Byte
deriving DecidableEq, Repr

/-- Why the machine stops with no next state. The faults of R180 are NOT here: the spec describes
their entry (R186), so a step that raises one has a next state. -/
inductive Fault where
  /-- Raised by `step` on a state with `rs = HALTED`: R9, R110: "a state with `rs = HALTED` has no
  step and is the end of the run". Safe: the hardware takes no step there either. -/
  | halted
deriving DecidableEq, Repr

/-- Why an instruction has no meaning in this model. -/
inductive Refusal where
  /-- Raised by an arm of `exec` whose instruction is not modelled. No arm raises it: every
  instruction of the table has its meaning. Safe. -/
  | notModelled (mnemonic : String)
deriving DecidableEq, Repr

/-- The fault register when no fault has been raised: cause NONE, pc 0, info 0 (R34). -/
def FaultReg.clear : FaultReg := { cause := .none, pc := 0#9, info := 0#9 }

/-- The state right after reset, before the host loads an image (R40 with `len = 0`, R220
"construct"). -/
def State.reset : State where
  regs := Vector.replicate 8 0#8
  pc := Config.entryPc
  fl := 0#8
  rs := .running
  fault := FaultReg.clear
  mem := []
  out := []

end Sys2Proof.Machine
end

