-- ==== Sys2Proof/Machine/Ops.lean ====
section
/-! DEFINITION. The named operations over memory, registers, PC and the output trace, and TAKING
A FAULT as one shared operation (spec/60_exceptions.md R186). There is no return from a fault
(R188), so no operation for one. -/

namespace Sys2Proof.Machine

/-! ### Memory: the 256 cells of R50 -/

/-- What an unlisted address reads as: "initialized to zero" (R36). -/
def Memory.unlisted : Byte := 0x00#8

/-- The contents of the cell at address `a`. -/
def Memory.read : Memory → Nat → Byte
  | [], _ => Memory.unlisted
  | (k, v) :: rest, a => if k = a then v else Memory.read rest a

/-- Puts the cell `(a, v)` in front, unless `v` is what an unlisted address reads as. -/
def Memory.consCell (a : Nat) (v : Byte) (m : Memory) : Memory :=
  if v = Memory.unlisted then m else (a, v) :: m

/-- Sets the cell at address `a` to `v` and changes no other cell; it keeps the canonical form. -/
def Memory.write : Memory → Nat → Byte → Memory
  | [], a, v => Memory.consCell a v []
  | (k, x) :: rest, a, v =>
    if a < k then Memory.consCell a v ((k, x) :: rest)
    else if a = k then Memory.consCell a v rest
    else (k, x) :: Memory.write rest a v

/-- The listed cells from address `lo` on are canonical: addresses strictly rising, inside the
address space, no cell holding what an unlisted address reads as. -/
def Memory.wfFrom : Nat → Memory → Bool
  | _, [] => true
  | lo, (k, v) :: rest =>
    decide (lo ≤ k) && decide (k < Config.memSize) && decide (v ≠ Memory.unlisted)
      && Memory.wfFrom (k + 1) rest

/-- Memory is in its one canonical form, so that equal memories are equal data. -/
def Memory.wf (m : Memory) : Bool := Memory.wfFrom 0 m

/-- `MemRead(addr, 1)` (R8, R51). -/
def memRead (a : Nat) (m : Memory) : Except Raised Byte :=
  if a < Config.memSize then .ok (m.read a) else .error { cause := .addressFault, info := a }

/-- `MemWrite(addr, 1, v)` (R8, R52). No instruction uses it; the host's image load does. -/
def memWrite (a : Nat) (v : Byte) (m : Memory) : Except Raised Memory :=
  if a < Config.memSize then .ok (m.write a v) else .error { cause := .addressFault, info := a }

/-! ### Registers, PC and output -/

/-- `x[i]` (R7, R21). -/
def State.reg (s : State) (i : Fin 8) : Byte := s.regs[i.val]

/-- `x[i] <- v` (R7, R21). -/
def State.setReg (s : State) (i : Fin 8) (v : Byte) : State := { s with regs := s.regs.set i.val v }

/-- `pc <- pc + w`: computed in 9 bits (R115, R134). -/
def State.advance (s : State) (w : Nat) : State := { s with pc := s.pc + BitVec.ofNat 9 w }

/-- `pc <- target` (R7). -/
def State.setPc (s : State) (target : PcWord) : State := { s with pc := target }

/-- `fl <- v`: all eight bits are overwritten (R31). -/
def State.setFl (s : State) (v : Byte) : State := { s with fl := v }

/-- `emit(v)`: `out <- out ++ [v]` (R8, R35). -/
def State.emit (s : State) (v : Byte) : State := { s with out := s.out ++ [v] }

/-- `rs <- HALTED` (R33). -/
def State.halt (s : State) : State := { s with rs := .halted }

/-! ### Faults -/

/-- The code of a cause in `fault.cause` (R34, R180). -/
def FaultCause.code : FaultCause → BitVec 3
  | .none => 0#3
  | .unknownInstruction => 1#3
  | .sourceNotFound => 2#3
  | .addressFault => 3#3
  | .registerIndexFault => 4#3
  | .unsupportedAluOp => 5#3
  | .malformedProgram => 6#3
  | .programTooLarge => 7#3

/-- Fault entry (R186): the cause, the address of the faulting instruction's opcode byte and the
offending value are saved, the run state becomes HALTED, and nothing else changes. -/
def raiseFault (r : Raised) (s : State) : State :=
  { s with
    fault := { cause := r.cause, pc := s.pc, info := BitVec.ofNat 9 r.info }
    rs := .halted }

/-- Commit (R116): a step whose checks all passed performs its writes together; one that raised
a fault discards every write and enters the fault from the state at the start of the step. -/
def commit (s : State) : Except Raised State → State
  | .ok s' => s'
  | .error r => raiseFault r s

end Sys2Proof.Machine
end

