-- ==== Sys2Proof/Machine/Operands.lean ====
section
/-! DEFINITION. The operand forms of spec/30_encoding.md R84: a register named by a whole operand
byte, the immediate of LDI (the byte as it stands, so no operation is needed), and a jump target
held in a register (spec/43_control.md R164). -/

namespace Sys2Proof.Machine

/-- `RegCheck(i)` (R8, R183): the register an operand byte names; a byte above 7 raises
RegisterIndexFault with the byte as its value, and is never masked to three bits (R84). -/
def regCheck (a : Byte) : Except Raised (Fin 8) :=
  if h : a.toNat < Config.nRegs then .ok ⟨a.toNat, h⟩
  else .error { cause := .registerIndexFault, info := a.toNat }

/-- The checked read of a register operand: `RegCheck(a)`, then `x[a]`. -/
def readOperand (a : Byte) (s : State) : Except Raised Byte := (regCheck a).map s.reg

/-- A jump target: the register's 8-bit value zero-extended to the 9-bit PC (R134, R164). -/
def jumpTarget (v : Byte) : PcWord := v.zeroExtend 9

end Sys2Proof.Machine
end

