-- ==== Sys2Proof/Machine/Alu.lean ====
section
/-! DEFINITION. The ALU (spec/41_alu.md) with its three operations, and the meanings of the two
instructions that reach it, MUL and CMP. ADD is an operation of the ALU that no opcode reaches
(R131): no meaning calls it. -/

namespace Sys2Proof.Machine

/-- The closed set of operation tags (R130). A tag outside it cannot be written down, so
UnsupportedAluOp is never raised (R135). -/
inductive AluOp where
  | add
  | mul
  | cmp
deriving DecidableEq, Repr

/-- The sum modulo 256 (R131, R134). -/
def aluAdd (x y : Byte) : Byte := BitVec.ofNat 8 ((x.toNat + y.toNat) % 256)

/-- The product is computed exactly and its low 8 bits are kept (R132, R134). -/
def aluMul (x y : Byte) : Byte := BitVec.ofNat 8 ((x.toNat * y.toNat) % 256)

/-- `apply(operation, register_a_index, register_b_index)` (R130): both indices are checked, in
order, before anything is read or written; then either `x[a]` (ADD, MUL) or `fl` (CMP) is
written, never both, and never PC. -/
def aluApply (op : AluOp) (a b : Byte) (s : State) : Except Raised State := do
  let i ← regCheck a
  let j ← regCheck b
  match op with
  | .add => .ok (s.setReg i (aluAdd (s.reg i) (s.reg j)))
  | .mul => .ok (s.setReg i (aluMul (s.reg i) (s.reg j)))
  | .cmp => .ok (s.setFl (compareFlags (s.reg i) (s.reg j)))

/-- `MUL Ra,Rb`: ALU MUL, then `pc <- pc + 3` (R132). -/
def execMul (a b : Byte) (s : State) : Host.Outcome State Fault Refusal :=
  .next (commit s ((aluApply .mul a b s).map fun t => t.advance 3))

/-- `CMP Ra,Rb`: ALU CMP, then `pc <- pc + 3` (R133). -/
def execCmp (a b : Byte) (s : State) : Host.Outcome State Fault Refusal :=
  .next (commit s ((aluApply .cmp a b s).map fun t => t.advance 3))

end Sys2Proof.Machine
end

