-- ==== Sys2Proof/Machine/Control.lean ====
section
/-! DEFINITION. The meanings of HLT, JMP, JEQ and JNE (spec/43_control.md). -/

namespace Sys2Proof.Machine

/-- A jump of width 2 under a condition: taken, `RegCheck(a); pc <- x[a]`; not taken,
`pc <- pc + 2` and the register is neither checked nor read (R161 to R164). -/
def jumpIf (taken : Bool) (a : Byte) (s : State) : State :=
  if taken then commit s ((readOperand a s).map fun v => s.setPc (jumpTarget v))
  else s.advance 2

/-- `HLT`: `rs <- HALTED; pc <- pc + 1`; the fault register is not written (R160). -/
def execHlt (s : State) : Host.Outcome State Fault Refusal := .next (s.halt.advance 1)

/-- `JMP Ra`: unconditional (R161). -/
def execJmp (a : Byte) (s : State) : Host.Outcome State Fault Refusal := .next (jumpIf true a s)

/-- `JEQ Ra`: taken when E is set (R162). -/
def execJeq (a : Byte) (s : State) : Host.Outcome State Fault Refusal :=
  .next (jumpIf (equalSet s.fl) a s)

/-- `JNE Ra`: taken when FL is exactly zero (R163). -/
def execJne (a : Byte) (s : State) : Host.Outcome State Fault Refusal :=
  .next (jumpIf (flagsClear s.fl) a s)

end Sys2Proof.Machine
end

