-- ==== Sys2Proof/Machine/LoadPrint.lean ====
section
/-! DEFINITION. The meanings of LDI and PRN (spec/42_load_print.md). There is no load and no store
(R153). -/

namespace Sys2Proof.Machine

/-- `LDI Ra,imm`: `x[a] <- imm; pc <- pc + 3` (R150). -/
def execLdi (a imm : Byte) (s : State) : Host.Outcome State Fault Refusal :=
  .next (commit s ((regCheck a).map fun i => (s.setReg i imm).advance 3))

/-- `PRN Ra`: `emit(x[a]); pc <- pc + 2` (R151). -/
def execPrn (a : Byte) (s : State) : Host.Outcome State Fault Refusal :=
  .next (commit s ((readOperand a s).map fun v => (s.emit v).advance 2))

end Sys2Proof.Machine
end

