-- ==== Sys2Proof/Decode.lean ====
section
/-! DEFINITION. The decoder, total on any bytes, and the encoder, both from the tables of
spec/30_encoding.md (R81, R82). -/

namespace Sys2Proof

/-- The three formats of R81, each with what it builds from its operand bytes. -/
inductive Format where
  /-- Format F1, one byte: the opcode. -/
  | f1 (i : Instr)
  /-- Format F2, two bytes: the opcode and operand_a. -/
  | f2 (make : Byte → Instr)
  /-- Format F3, three bytes: the opcode, operand_a and operand_b. -/
  | f3 (make : Byte → Byte → Instr)

/-- Why bytes are not an instruction. -/
inductive DecodeError where
  /-- There is no opcode byte at all. -/
  | noOpcode
  /-- The opcode byte is none of the eight (R85). -/
  | unknownOpcode (op : Byte)
  /-- The bytes end before operand number `k` (1 for operand_a, 2 for operand_b), which lies
  inside the instruction's width (R113). -/
  | missingOperand (k : Nat)
deriving DecidableEq, Repr

/-- The fixed opcode table of R82, in the source's order. -/
def opcodeTable : List (Byte × Format) :=
  [(0x01#8, .f1 .hlt), (0x82#8, .f3 .ldi), (0x47#8, .f2 .prn), (0xA2#8, .f3 .mul),
   (0xA7#8, .f3 .cmp), (0x55#8, .f2 .jeq), (0x56#8, .f2 .jne), (0x54#8, .f2 .jmp)]

/-- Decoding is an exact match of the whole opcode byte (R82, R112); `none` for the 248 other
byte values (R85). -/
def formatOf (op : Byte) : Option Format := opcodeTable.lookup op

/-- The width of a format (R81). -/
def Format.width : Format → Nat
  | .f1 _ => 1
  | .f2 _ => 2
  | .f3 _ => 3

/-- The width is a function of the opcode byte only, and an unknown opcode has none (R83). -/
def opcodeWidth (op : Byte) : Option Nat := (formatOf op).map Format.width

/-- Decodes the first instruction of a list of bytes, and gives the bytes after it. An operand
byte is read only inside the instruction's width (R113), as it stands (R84). -/
def decode : List Byte → Except DecodeError (Instr × List Byte)
  | [] => .error .noOpcode
  | op :: rest =>
    match formatOf op, rest with
    | none, _ => .error (.unknownOpcode op)
    | some (.f1 i), rest => .ok (i, rest)
    | some (.f2 _), [] => .error (.missingOperand 1)
    | some (.f2 make), a :: rest => .ok (make a, rest)
    | some (.f3 _), [] => .error (.missingOperand 1)
    | some (.f3 _), [_] => .error (.missingOperand 2)
    | some (.f3 make), a :: b :: rest => .ok (make a b, rest)

/-- The bytes of an instruction in ascending address order (R56, R81, R82). -/
def encode : Instr → List Byte
  | .hlt => [0x01#8]
  | .ldi a imm => [0x82#8, a, imm]
  | .prn a => [0x47#8, a]
  | .mul a b => [0xA2#8, a, b]
  | .cmp a b => [0xA7#8, a, b]
  | .jeq a => [0x55#8, a]
  | .jne a => [0x56#8, a]
  | .jmp a => [0x54#8, a]

/-- The number of bytes an instruction occupies (R26, R83). -/
def Instr.width : Instr → Nat
  | .hlt => 1
  | .ldi _ _ => 3
  | .prn _ => 2
  | .mul _ _ => 3
  | .cmp _ _ => 3
  | .jeq _ => 2
  | .jne _ => 2
  | .jmp _ => 2

/-- The bytes of a table word of `nbits` bits: bits 7..0 are the first byte, and every bit from
`nbits` up is 0. As many bytes as the longest instruction has. -/
def tableWordBytes (nbits w : Nat) : List Byte :=
  (List.range Config.fetchWindow).map fun k => BitVec.ofNat 8 ((w % 2 ^ nbits) >>> (8 * k))

/-- The instruction the decoder reads from a table word; `none` where it refuses. -/
def decodeTableWord (nbits w : Nat) : Option Instr :=
  match decode (tableWordBytes nbits w) with
  | .ok (i, _) => some i
  | .error _ => none

end Sys2Proof
end

