-- ==== Sys2Proof/Machine/Fetch.lean ====
section
/-! DEFINITION. Fetch and decode of the instruction at PC, clamped to the instruction's width
(spec/40_execution_cycle.md R111 to R113). -/

namespace Sys2Proof.Machine

/-- The operand bytes of a format, read in order and only inside the width (R113). -/
def fetchOperands (s : State) : Format → Except Raised Instr
  | .f1 i => .ok i
  | .f2 make => do
    let a ← memRead (s.pc.toNat + 1) s.mem
    .ok (make a)
  | .f3 make => do
    let a ← memRead (s.pc.toNat + 1) s.mem
    let b ← memRead (s.pc.toNat + 2) s.mem
    .ok (make a b)

/-- The opcode byte is read (R111), matched against the table (R112), and the operand bytes are
fetched (R113); the first check that fails raises its fault (R185). -/
def fetchInstr (s : State) : Except Raised Instr := do
  let op ← memRead s.pc.toNat s.mem
  match formatOf op with
  | none => .error { cause := .unknownInstruction, info := op.toNat }
  | some f => fetchOperands s f

/-- Stores the bytes at consecutive addresses from `a` on; a byte whose address does not exist is
left out. -/
def placeBytes (a : Nat) : List Byte → Memory → Memory
  | [], m => m
  | v :: rest, m => placeBytes (a + 1) rest (if a < Config.memSize then m.write a v else m)

end Sys2Proof.Machine
end

