-- ==== Sys2Proof/Machine/Step.lean ====
section
/-! DEFINITION. The step of the one agent, the execution engine (spec/40_execution_cycle.md R110,
R120), and the placing of one instruction where the next step fetches it. -/

namespace Sys2Proof.Machine

/-- One step: none on a HALTED state (R110); otherwise one instruction, or one fault entry. -/
def step (s : State) : Host.Outcome State Fault Refusal :=
  match s.rs with
  | .halted => .fault .halted
  | .running =>
    match fetchInstr s with
    | .ok i => exec i s
    | .error r => .next (raiseFault r s)

/-- `s` with the instruction of a table word stored at PC, where the next step fetches it. Only
memory changes (log entry 6). -/
def State.withFetchWord (s : State) (nbits w : Nat) : State :=
  { s with mem := placeBytes s.pc.toNat (tableWordBytes nbits w) s.mem }

end Sys2Proof.Machine
end

