-- ==== Sys2Proof/Machine/Boot.lean ====
section
/-! DEFINITION. The host's side of the interface of spec/70_reset_and_hazards.md R220: the image
load that precedes the first step (R221), what the host observes at the end of a run (R118, R191),
the rendering of the output (R152), and the Loader's text format (spec/30_encoding.md R90,
spec/60_exceptions.md R192), which R4(a) calls surrounding software. No step of the machine calls
any of this. -/

namespace Sys2Proof.Machine

/-! ### Image load -/

/-- The image written at consecutive addresses from `k` on, each byte by `MemWrite` (R221). -/
def loadFrom (k : Nat) : List Byte → Memory → Except Raised Memory
  | [], m => .ok m
  | v :: rest, m => do
    let m' ← memWrite k v m
    loadFrom (k + 1) rest m'

/-- The state before the first step for an image (R40): the reset state with the image in memory
from address 0. An image longer than memory is never loaded and no run exists (R192, R221). -/
def State.boot (img : List Byte) : Option State :=
  if img.length ≤ Config.memSize then
    match loadFrom Config.loadBase img State.reset.mem with
    | .ok m => some { State.reset with mem := m }
    | .error _ => none
  else none

/-! ### What the host sees -/

/-- The exit status of a run that ended in this state: `fault.cause` (R191, the spec's decision
D9); a run that has not ended has none. -/
def exitStatus (s : State) : Option Nat :=
  match s.rs with
  | .halted => some s.fault.cause.code.toNat
  | .running => none

/-- The decimal digit `d`. -/
def decimalDigit (d : Nat) : Char := Char.ofNat (48 + d)

/-- The decimal numeral of a byte, with no leading zeros and no sign (R152). -/
def decimal (v : Byte) : List Char :=
  if v.toNat < 10 then [decimalDigit v.toNat]
  else if v.toNat < 100 then [decimalDigit (v.toNat / 10), decimalDigit (v.toNat % 10)]
  else [decimalDigit (v.toNat / 100), decimalDigit (v.toNat / 10 % 10), decimalDigit (v.toNat % 10)]

/-- The lines of text the host writes for an output trace, one value a line, in order (R152). -/
def render (out : List Byte) : List (List Char) := out.map decimal

/-! ### The Loader -/

/-- White space inside a line (log entry 8): space, tab, vertical tab, form feed, return. -/
def isBlank (c : Char) : Bool := [32, 9, 11, 12, 13].contains c.toNat

/-- The lines of a text. -/
def splitLines : List Char → List (List Char)
  | [] => [[]]
  | c :: cs =>
    if c = '\n' then [] :: splitLines cs
    else
      match splitLines cs with
      | [] => [[c]]
      | l :: ls => (c :: l) :: ls

/-- "strip everything from the first comment marker onward, strip surrounding whitespace" (R90). -/
def lineToken (l : List Char) : List Char :=
  (((l.takeWhile (fun c => c ≠ '#')).dropWhile isBlank).reverse.dropWhile isBlank).reverse

/-- The value of a base-2 digit. -/
def bitOf (c : Char) : Option Nat :=
  if c = '0' then some 0 else if c = '1' then some 1 else none

/-- The value of a sequence of base-2 digits, most significant first, after `acc`. -/
def binaryFrom (acc : Nat) : List Char → Option Nat
  | [] => some acc
  | c :: cs => (bitOf c).bind fun d => binaryFrom (2 * acc + d) cs

/-- The value of a token as a base-2 integer literal (R90); `none` is a parse failure. A token
that holds a prefix, an underscore or a sign is a free value (N19, log entry 8). -/
def literalValue (t : List Char) : Option Nat :=
  match binaryFrom 0 t with
  | some v => some v
  | none =>
    if t.all (fun c => ['0', '1', 'b', 'B', '_', '+', '-'].contains c) then Config.unstatedLiteral t
    else none

/-- One significant token: a byte, or a malformed program when it does not parse or its value
exceeds 255 (R90, R192, the spec's decision D14). -/
def parseToken (t : List Char) : Except FaultCause Byte :=
  match literalValue t with
  | some v => if v < 256 then .ok (BitVec.ofNat 8 v) else .error .malformedProgram
  | none => .error .malformedProgram

/-- The Loader's algorithm over the lines: a line that is empty once stripped is ignored, any other
is one byte of the sequence (R90). -/
def parseLines : List (List Char) → Except FaultCause (List Byte)
  | [] => .ok []
  | l :: ls =>
    if (lineToken l).isEmpty then parseLines ls
    else do
      let v ← parseToken (lineToken l)
      let vs ← parseLines ls
      .ok (v :: vs)

/-- The Loader (R90, R192): the image of a source text, or its load-time fault; `none` is a source
that cannot be found or opened. -/
def loadSource : Option (List Char) → Except FaultCause (List Byte)
  | none => .error .sourceNotFound
  | some text => do
    let img ← parseLines (splitLines text)
    if img.length ≤ Config.memSize then .ok img else .error .programTooLarge

end Sys2Proof.Machine
end

