-- ==== Sys2Proof/Safety.lean ====
section
/-! DEFINITION. The terms statements are made in: the cells at PC, the legal values of the state
(spec/10_state.md R27, R30, R34), and the ends of a run (spec/40_execution_cycle.md R118). -/

namespace Sys2Proof.Machine

/-- The cells from PC on hold the bytes `bs`, all of them inside the address space. -/
def CellsAt (s : State) (bs : List Byte) : Prop :=
  s.pc.toNat + bs.length ≤ 256 ∧ ∀ k, k < bs.length → bs[k]? = some (s.mem.read (s.pc.toNat + k))

/-- The legal values of FL (R30). -/
def LegalFlags (fl : Byte) : Prop := fl = 0x00#8 ∨ fl = 0x01#8 ∨ fl = 0x02#8 ∨ fl = 0x04#8

/-- What the fault register of a legal state holds (R34, R180): clear while RUNNING and after a
normal HLT; otherwise the address the engine stopped at (PC is unchanged by a fault), and the
offending value of the cause. -/
def LegalFault (s : State) : Prop :=
  s.fault = FaultReg.clear ∨
  s.rs = .halted ∧ s.fault.pc = s.pc ∧
    (s.fault.cause = .unknownInstruction ∧ s.fault.info.toNat < 256 ∧
        opcodeWidth (BitVec.ofNat 8 s.fault.info.toNat) = none ∨
     s.fault.cause = .addressFault ∧ s.fault.info = 256#9 ∧ 254 ≤ s.pc.toNat ∨
     s.fault.cause = .registerIndexFault ∧ 8 ≤ s.fault.info.toNat ∧ s.fault.info.toNat < 256)

/-- The invariant of the machine: PC is 0 to 256 (R27), FL has a legal value (R30), memory is in
its canonical form (R50, R53), and the fault register is legal (R34, R180, R182). -/
structure Inv (s : State) : Prop where
  pc_le : s.pc.toNat ≤ 256
  flags : LegalFlags s.fl
  mem_wf : s.mem.wf = true
  fault : LegalFault s

/-- The register operand bytes an instruction accesses in a state, in the order they are checked
(R183): a conditional jump that is not taken accesses none, and LDI's immediate is never one. -/
def accessedOperands (i : Instr) (s : State) : List Byte :=
  match i with
  | .hlt => []
  | .ldi a _ => [a]
  | .prn a => [a]
  | .mul a b => [a, b]
  | .cmp a b => [a, b]
  | .jeq a => if s.fl.getLsbD 0 then [a] else []
  | .jne a => if s.fl = 0x00#8 then [a] else []
  | .jmp a => [a]

/-- The register operand bytes whose registers an instruction reads (R22): those it accesses, but for
LDI's destination, which it only writes. -/
def readOperands (i : Instr) (s : State) : List Byte :=
  match i with
  | .ldi _ _ => []
  | i => accessedOperands i s

/-- The tokens of the significant lines of a source text, in order (R90): a line that is empty once
its comment and surrounding white space are stripped is not significant. -/
def significantTokens (text : List Char) : List (List Char) :=
  ((splitLines text).map lineToken).filter fun t => !t.isEmpty

/-- A token of base-2 digits alone. -/
def BinaryDigits (t : List Char) : Prop := t ≠ [] ∧ ∀ c ∈ t, c = '0' ∨ c = '1'

/-- The value of base-2 digits, most significant first. -/
def digitsValue (t : List Char) : Nat := t.foldl (fun n c => 2 * n + if c = '1' then 1 else 0) 0

/-- A normal end of a run: HALTED with cause NONE (R118). -/
def NormalEnd (s : State) : Prop := s.rs = .halted ∧ s.fault.cause = .none

/-- An abnormal end of a run: HALTED with a cause (R118). -/
def AbnormalEnd (s : State) : Prop := s.rs = .halted ∧ s.fault.cause ≠ .none

end Sys2Proof.Machine
end

