-- ==== Sys2Proof/WellFormed.lean ====
section
/-! DEFINITION. Well-formed instructions: every register operand names a register
(spec/30_encoding.md R81, R84: "Register indices must be in [0,7]"). The decoder and the machine
do NOT ask for it: an ill-formed instruction decodes, and runs to the fault of R183 where it
accesses the register. -/

namespace Sys2Proof

/-- A register operand byte names one of R0 to R7 (R84). -/
def regOk (a : Byte) : Bool := decide (a.toNat < Config.nRegs)

/-- Every register operand of the instruction names a register. The immediate of LDI is any
byte (R86: "every value 0 to 255 is a legal LDI immediate"). -/
def WellFormed : Instr → Bool
  | .hlt => true
  | .ldi a _ => regOk a
  | .prn a => regOk a
  | .mul a b => regOk a && regOk b
  | .cmp a b => regOk a && regOk b
  | .jeq a => regOk a
  | .jne a => regOk a
  | .jmp a => regOk a

end Sys2Proof
end

