-- ==== Sys2Proof/Certificates/Slice0/Obligations.lean ====
section
/-! DEFINITION. The statements for the provers. In all of them a FAULT of the hardware is a next
state, the one `raiseFault` gives (spec/60_exceptions.md R186); `core.run k s` is `k` steps. "The
spec's decision D<n>" is a choice that spec/92_eei_decisions.md marks as the spec's own. -/

open Sys2Proof Sys2Proof.Machine

/-! ### Encoding and decoding -/

/-- Decode and encode agree in both directions: bytes decode to an instruction and a rest exactly
when they are the instruction's encoding followed by that rest. -/
def Obligations.DecodeExactlyInvertsEncode : Prop :=
  ∀ (bs : List Byte) (i : Instr) (rest : List Byte),
    decode bs = .ok (i, rest) ↔ bs = encode i ++ rest

/-- A word of each format, and of each family, written out from R81 and R82. -/
def Obligations.SpecWordsDecodeToTheirInstructions : Prop :=
  decodeTableWord 8 0b00000001 = some .hlt ∧
  decodeTableWord 24 0b11111111_00000111_10000010 = some (.ldi 7#8 255#8) ∧
  decodeTableWord 16 0b00000010_01000111 = some (.prn 2#8) ∧
  decodeTableWord 24 0b00000001_00000011_10100010 = some (.mul 3#8 1#8) ∧
  decodeTableWord 24 0b00000001_00000011_10100111 = some (.cmp 3#8 1#8) ∧
  decodeTableWord 16 0b00000100_01010101 = some (.jeq 4#8) ∧
  decodeTableWord 16 0b00000101_01010110 = some (.jne 5#8) ∧
  decodeTableWord 16 0b00000110_01010100 = some (.jmp 6#8)

/-- The width is a function of the opcode byte only (R83); an opcode byte outside the table has no
width, and the step that meets one faults before any operand is considered, by the fault entry (what it
writes is the spec's decision D8, log entry 9; that 0xA0 is outside the table is D12, log entry 13). -/
def Obligations.WidthIsFixedByTheOpcodeByte : Prop :=
  (∀ op : Byte,
    (opcodeWidth op = some 1 ↔ op = 0x01#8) ∧
    (opcodeWidth op = some 2 ↔ op = 0x47#8 ∨ op = 0x54#8 ∨ op = 0x55#8 ∨ op = 0x56#8) ∧
    (opcodeWidth op = some 3 ↔ op = 0x82#8 ∨ op = 0xA2#8 ∨ op = 0xA7#8) ∧
    (opcodeWidth op = none ↔ op ∉ [0x01#8, 0x82#8, 0x47#8, 0xA2#8, 0xA7#8, 0x55#8, 0x56#8, 0x54#8])) ∧
  (∀ i : Instr, (encode i).head?.bind opcodeWidth = some (encode i).length) ∧
  (∀ s : State, s.rs = .running → s.pc.toNat ≤ 255 →
    opcodeWidth (s.mem.read s.pc.toNat) = none →
    step s = .next (raiseFault
      { cause := .unknownInstruction, info := (s.mem.read s.pc.toNat).toNat } s))

/-- Every byte list whose first byte is none of the eight opcodes is refused by name, whatever
follows, and the decoder calls no other byte unknown (R85; that 0xA0 is among them is the spec's
decision D12). -/
def Obligations.UnknownOpcodesAreRefused : Prop :=
  ∀ (bs : List Byte) (op : Byte),
    decode bs = .error (.unknownOpcode op) ↔
      ∃ rest, bs = op :: rest ∧
        op ∉ [0x01#8, 0x82#8, 0x47#8, 0xA2#8, 0xA7#8, 0x55#8, 0x56#8, 0x54#8]

/-- Bytes that end inside the width of the instruction they begin are refused, with the number of
the first operand that is missing; any more bytes than that are an instruction of exactly that
width (the clamp of R113 is the spec's decision D7). -/
def Obligations.TruncatedInstructionsAreRefused : Prop :=
  ∀ (op : Byte) (rest : List Byte) (w : Nat), opcodeWidth op = some w →
    (rest.length + 1 < w → decode (op :: rest) = .error (.missingOperand (rest.length + 1))) ∧
    (w ≤ rest.length + 1 → ∃ i, decode (op :: rest) = .ok (i, (op :: rest).drop w) ∧
      encode i = (op :: rest).take w)

/-- The table word of an instruction (its first byte lowest) decodes to the instruction. -/
def Obligations.TableWordOfAnInstructionDecodes : Prop :=
  ∀ i : Instr,
    decodeTableWord (8 * (encode i).length)
      ((encode i).foldr (fun v acc => v.toNat + 256 * acc) 0) = some i

/-- A table word placed where the machine fetches is what the next step runs. The placing is the
model's own (log entry 6). -/
def Obligations.PlacedWordIsWhatTheNextStepRuns : Prop :=
  ∀ (s : State) (nbits w : Nat) (i : Instr), s.rs = .running → s.pc.toNat + 3 ≤ 256 →
    s.mem.wf = true → decodeTableWord nbits w = some i →
      step (s.withFetchWord nbits w) = exec i (s.withFetchWord nbits w)

/-! ### Memory -/

/-- R51: MemRead answers the cell at any address below 256, and AddressFault with that address at
any other; no address wraps to a cell. -/
def Obligations.MemReadContract : Prop :=
  ∀ (a : Nat) (m : Memory),
    (a < 256 → memRead a m = .ok (m.read a)) ∧
    (256 ≤ a → memRead a m = .error { cause := .addressFault, info := a })

/-- R52: MemWrite sets the cell at any address below 256 to the value and changes no other cell,
raises AddressFault with the address at any other, and no step of the engine performs one. -/
def Obligations.MemWriteContract : Prop :=
  (∀ (a : Nat) (v : Byte) (m : Memory), m.wf = true →
    (a < 256 → ∃ m', memWrite a v m = .ok m' ∧ m'.read a = v ∧ ∀ b, b ≠ a → m'.read b = m.read b) ∧
    (256 ≤ a → memWrite a v m = .error { cause := .addressFault, info := a })) ∧
  (∀ s t : State, step s = .next t → t.mem = s.mem)

/-- Memories in the canonical form that read alike at every address are the same data. -/
def Obligations.CanonicalMemoriesThatReadAlikeAreEqual : Prop :=
  ∀ m m' : Memory, m.wf = true → m'.wf = true → (∀ a, a < 256 → m.read a = m'.read a) → m = m'

/-- Memory is constant from the first step to the end of a run, however long (R54). -/
def Obligations.MemoryIsConstantInEveryRun : Prop :=
  ∀ (k : Nat) (s t : State), core.run k s = .next t → ∀ a, t.mem.read a = s.mem.read a

/-! ### Reset, image load and the invariant -/

/-- R28: PC is 0 at reset and the engine is RUNNING. -/
def Obligations.ResetStartsRunningAtZero : Prop :=
  State.reset.pc = 0#9 ∧ State.reset.rs = .running

/-- The rest of the reset state: registers (the spec's decision D5), FL (D6) and the fault register
(D8) zero, the output empty, every memory cell zero. -/
def Obligations.ResetLeavesEverythingZero : Prop :=
  (∀ i : Fin 8, State.reset.reg i = 0x00#8) ∧ State.reset.fl = 0x00#8 ∧
  State.reset.fault.cause.code = 0#3 ∧ State.reset.fault.pc = 0#9 ∧ State.reset.fault.info = 0#9 ∧
  State.reset.out = [] ∧ ∀ a, State.reset.mem.read a = 0x00#8

/-- An image of at most 256 bytes is loaded at addresses 0 upward, the cells after it keep zero, and
the rest of the state is the reset state; a longer one is never loaded (R40, R221; that the Loader
is the host is the spec's decision D14). -/
def Obligations.ImageLoadSetsMemoryOnly : Prop :=
  ∀ img : List Byte,
    (img.length ≤ 256 → ∃ s, State.boot img = some s ∧
      s = { State.reset with mem := s.mem } ∧
      ∀ a, s.mem.read a = (img[a]?).getD 0x00#8) ∧
    (256 < img.length → State.boot img = none)

/-- The invariant `Inv` holds at reset. -/
def Obligations.InvariantHoldsAtReset : Prop := Inv State.reset

/-- The invariant holds in the state an image load leaves. -/
def Obligations.InvariantHoldsAfterImageLoad : Prop :=
  ∀ (img : List Byte) (s : State), State.boot img = some s → Inv s

/-- Every step keeps the invariant: PC stays 0 to 256, FL stays 0x00, 0x01, 0x02 or 0x04, memory
stays canonical, and the fault register stays clear or holds a fault the engine can raise, with the
address it stopped at (PC's range is the spec's decision D3, the flag bits D4, the fault register
D8). -/
def Obligations.EveryStepKeepsTheInvariant : Prop :=
  ∀ s t : State, Inv s → step s = .next t → Inv t

/-! ### The step -/

/-- A step runs the decoded instruction: when the cells from PC on decode to an instruction, whatever
follows it, the step is that instruction's execution; it adds nothing around it. -/
def Obligations.StepRunsTheDecodedInstruction : Prop :=
  ∀ (s : State) (bs : List Byte) (i : Instr) (rest : List Byte),
    s.rs = .running → CellsAt s bs → decode bs = .ok (i, rest) → step s = exec i s

/-- R9: a step completes, or raises exactly one fault and gives the faulted state, and never both;
a HALTED state has no step; there is no third outcome. The premise that no fault is recorded yet holds
in every RUNNING state that meets the invariant `Inv`; that it does
is stated by EveryStepKeepsTheInvariant. -/
def Obligations.StepHasExactlyOneOfTwoOutcomes : Prop :=
  (∀ s : State, s.rs = .running → s.fault.cause = .none → ∃ t, step s = .next t ∧
    Xor (t.fault.cause = .none ∧ ∃ i, CellsAt s (encode i) ∧ exec i s = .next t)
         (∃ r : Raised, r.cause ≠ .none ∧ t = raiseFault r s)) ∧
  (∀ s : State, s.rs = .halted → step s = .fault .halted)

/-- A RUNNING state always has a next state, a HALTED one never, and no step is refused (R110; that
nothing leaves HALTED is the spec's decision D17). -/
def Obligations.EveryRunningStateHasAStep : Prop :=
  ∀ s : State, ((∃ t, step s = .next t) ↔ s.rs = .running) ∧
    (step s = .fault .halted ↔ s.rs = .halted) ∧ ∀ r, step s ≠ .refused r

/-- Of several faults of one instruction the step reports the first in the order: opcode address,
unknown opcode, operand_a address, operand_b address, operand_a index, operand_b index (R185, the
spec's decision D10; the clamped fetch is D7). -/
def Obligations.FaultPriority : Prop :=
  ∀ s : State, s.rs = .running →
    (256 ≤ s.pc.toNat →
      step s = .next (raiseFault { cause := .addressFault, info := s.pc.toNat } s)) ∧
    (s.pc.toNat ≤ 255 → opcodeWidth (s.mem.read s.pc.toNat) = none →
      step s = .next (raiseFault
        { cause := .unknownInstruction, info := (s.mem.read s.pc.toNat).toNat } s)) ∧
    (∀ w, opcodeWidth (s.mem.read s.pc.toNat) = some w → s.pc.toNat ≤ 255 → 256 < s.pc.toNat + w →
      step s = .next (raiseFault { cause := .addressFault, info := 256 } s)) ∧
    (∀ a b : Byte, CellsAt s [0xA2#8, a, b] ∨ CellsAt s [0xA7#8, a, b] →
      (7 < a.toNat →
        step s = .next (raiseFault { cause := .registerIndexFault, info := a.toNat } s)) ∧
      (a.toNat ≤ 7 → 7 < b.toNat →
        step s = .next (raiseFault { cause := .registerIndexFault, info := b.toNat } s)))

/-- An instruction raises RegisterIndexFault exactly when a register operand it accesses is above 7, for
the first such operand in the order of its checks, and records the operand byte; with every accessed
operand in range it raises no fault (R183, which marks as the spec's own that the check applies to every
register access). That a jump not taken accesses no register is the spec's decision D11 (log entry 10),
the order of the operands D10 and what the entry writes D8 (log entry 9). -/
def Obligations.RegisterIndexFaultExactlyWhen : Prop :=
  ∀ (i : Instr) (s : State),
    (∀ a, (accessedOperands i s).find? (fun a => decide (7 < a.toNat)) = some a →
      ∃ t, exec i s = .next t ∧ t = raiseFault { cause := .registerIndexFault, info := a.toNat } s ∧
        t.fault.cause = .registerIndexFault ∧ t.fault.info.toNat = a.toNat) ∧
    ((∀ a ∈ accessedOperands i s, a.toNat ≤ 7) → ∃ t, exec i s = .next t ∧ t.fault = s.fault)

/-- A well-formed instruction never faults: its register operands are in range whether or not it
accesses them. The notion of well-formedness is the model's, from R81 and R84. -/
def Obligations.WellFormedInstructionsNeverFault : Prop :=
  ∀ (i : Instr) (s : State), WellFormed i = true →
    ∃ t, exec i s = .next t ∧ t.fault = s.fault ∧ (t.rs = s.rs ∨ i = .hlt ∧ t.rs = .halted)

/-- Faults are precise: a step that raises one leaves registers, PC, FL, memory and output as they
were, saves the address of the faulting instruction, and halts (R116, R186, the spec's decision
D8). -/
def Obligations.FaultsArePrecise : Prop :=
  ∀ s t : State, s.fault = FaultReg.clear → step s = .next t → t.fault.cause ≠ .none →
    t.rs = .halted ∧ t.fault.pc = s.pc ∧ t.pc = s.pc ∧ (∀ i : Fin 8, t.reg i = s.reg i) ∧
    t.fl = s.fl ∧ t.out = s.out ∧ (∀ a, t.mem.read a = s.mem.read a) ∧
    (t.fault.cause = .unknownInstruction ∨ t.fault.cause = .addressFault ∨
      t.fault.cause = .registerIndexFault)

/-- A step halts the engine in exactly two ways: a HLT completes, with PC after it and the fault
register as it was, or a fault is raised (R33, R118; the fault register is the spec's decision
D8). -/
def Obligations.HaltsOnlyByHltOrFault : Prop :=
  ∀ s t : State, step s = .next t → t.rs = .halted →
    CellsAt s [0x01#8] ∧ t.fault = s.fault ∧ t.pc = s.pc + 1#9 ∨
    AbnormalEnd t ∧ t.pc = s.pc ∧ t.fault.pc = s.pc

/-- R87: the bytes after the instruction do not affect the step, at any address: two memories that
agree on the bytes inside the width give the same step. -/
def Obligations.BytesAfterTheInstructionAreIgnored : Prop :=
  ∀ (s : State) (m : Memory) (i : Instr), s.rs = .running → CellsAt s (encode i) →
    CellsAt { s with mem := m } (encode i) →
      ∃ t, step s = .next t ∧ step { s with mem := m } = .next { t with mem := m }

/-! ### The instructions -/

/-- LDI (R150). In this and the statements below, the AddressFault of an operand byte past address 255
rests on the clamped fetch (the spec's decision D7), and what a fault writes on D8. -/
def Obligations.LdiLoadsItsImmediate : Prop :=
  ∀ (s : State) (a imm : Byte),
    (∀ i : Fin 8, i.val = a.toNat → ∃ t, exec (.ldi a imm) s = .next t ∧
      (∀ j : Fin 8, t.reg j = if j = i then imm else s.reg j) ∧
      t = { s with regs := t.regs, pc := s.pc + 3#9 }) ∧
    (7 < a.toNat → ∃ t, exec (.ldi a imm) s = .next t ∧
      t = raiseFault { cause := .registerIndexFault, info := a.toNat } s ∧
      (∀ j : Fin 8, t.reg j = s.reg j) ∧ t.pc = s.pc) ∧
    (s.rs = .running → CellsAt s [0x82#8, a, imm] → step s = exec (.ldi a imm) s) ∧
    (s.rs = .running → 254 ≤ s.pc.toNat → s.pc.toNat ≤ 255 → s.mem.read s.pc.toNat = 0x82#8 →
      step s = .next (raiseFault { cause := .addressFault, info := 256 } s))

/-- PRN (R151). That the output never refuses a value is the spec's decision D13. -/
def Obligations.PrnEmitsItsRegister : Prop :=
  ∀ (s : State) (a : Byte),
    (∀ i : Fin 8, i.val = a.toNat →
      exec (.prn a) s = .next { s with out := s.out ++ [s.reg i], pc := s.pc + 2#9 }) ∧
    (7 < a.toNat → ∃ t, exec (.prn a) s = .next t ∧
      t = raiseFault { cause := .registerIndexFault, info := a.toNat } s ∧
      t.out = s.out ∧ t.pc = s.pc) ∧
    (s.rs = .running → CellsAt s [0x47#8, a] → step s = exec (.prn a) s) ∧
    (s.rs = .running → s.pc.toNat = 255 → s.mem.read 255 = 0x47#8 →
      step s = .next (raiseFault { cause := .addressFault, info := 256 } s))

/-- MUL (R132): the product of the two old values modulo 256, and no flag. -/
def Obligations.MulMultipliesModulo256 : Prop :=
  ∀ (s : State) (a b : Byte),
    (∀ i j : Fin 8, i.val = a.toNat → j.val = b.toNat → ∃ t, exec (.mul a b) s = .next t ∧
      (t.reg i).toNat = (s.reg i).toNat * (s.reg j).toNat % 256 ∧
      (∀ k : Fin 8, k ≠ i → t.reg k = s.reg k) ∧
      t = { s with regs := t.regs, pc := s.pc + 3#9 }) ∧
    (∀ c : Byte, (c = a ∧ 7 < a.toNat ∨ c = b ∧ a.toNat ≤ 7 ∧ 7 < b.toNat) →
      ∃ t, exec (.mul a b) s = .next t ∧
        t = raiseFault { cause := .registerIndexFault, info := c.toNat } s ∧
        (∀ k : Fin 8, t.reg k = s.reg k) ∧ t.pc = s.pc) ∧
    (s.rs = .running → CellsAt s [0xA2#8, a, b] → step s = exec (.mul a b) s) ∧
    (s.rs = .running → 254 ≤ s.pc.toNat → s.pc.toNat ≤ 255 → s.mem.read s.pc.toNat = 0xA2#8 →
      step s = .next (raiseFault { cause := .addressFault, info := 256 } s))

/-- CMP (R133). FL is overwritten with the outcome of the exact difference of the two unsigned
values, and nothing else but PC changes; the places of E, G and L in FL are the spec's decision
D4. -/
def Obligations.CmpRecordsTheUnsignedOutcome : Prop :=
  ∀ (s : State) (a b : Byte),
    (∀ i j : Fin 8, i.val = a.toNat → j.val = b.toNat → ∃ t, exec (.cmp a b) s = .next t ∧
      t = { s with fl := t.fl, pc := s.pc + 3#9 } ∧
      (((s.reg i).toNat : Int) - (s.reg j).toNat = 0 → t.fl = 0x01#8) ∧
      (((s.reg i).toNat : Int) - (s.reg j).toNat > 0 → t.fl = 0x02#8) ∧
      (((s.reg i).toNat : Int) - (s.reg j).toNat < 0 → t.fl = 0x04#8)) ∧
    (∀ c : Byte, (c = a ∧ 7 < a.toNat ∨ c = b ∧ a.toNat ≤ 7 ∧ 7 < b.toNat) →
      ∃ t, exec (.cmp a b) s = .next t ∧
        t = raiseFault { cause := .registerIndexFault, info := c.toNat } s ∧
        t.fl = s.fl ∧ t.pc = s.pc) ∧
    (s.rs = .running → CellsAt s [0xA7#8, a, b] → step s = exec (.cmp a b) s) ∧
    (s.rs = .running → 254 ≤ s.pc.toNat → s.pc.toNat ≤ 255 → s.mem.read s.pc.toNat = 0xA7#8 →
      step s = .next (raiseFault { cause := .addressFault, info := 256 } s))

/-- HLT (R160) completes at every address from 0 to 255 (255 by the spec's decisions D3 and D7), halts
the engine, leaves everything else but PC as it was, is a success when no fault is recorded (the
status is D9), and no step follows it (D17). -/
def Obligations.HltHaltsForGood : Prop :=
  ∀ s : State,
    exec .hlt s = .next { s with rs := .halted, pc := s.pc + 1#9 } ∧
    (s.rs = .running → CellsAt s [0x01#8] → ∃ t, step s = .next t ∧
      t = { s with rs := .halted, pc := s.pc + 1#9 } ∧ t.pc.toNat = s.pc.toNat + 1 ∧
      (s.fault = FaultReg.clear → NormalEnd t ∧ exitStatus t = some 0) ∧
      ∀ k, core.run (k + 1) t = .fault .halted)

/-- JMP (R161) always jumps to the value of its register; a jump to its own address leaves the state
as it was. -/
def Obligations.JmpAlwaysJumps : Prop :=
  ∀ (s : State) (a : Byte),
    (∀ i : Fin 8, i.val = a.toNat → ∃ t, exec (.jmp a) s = .next t ∧
      t = { s with pc := t.pc } ∧ t.pc.toNat = (s.reg i).toNat) ∧
    (7 < a.toNat → ∃ t, exec (.jmp a) s = .next t ∧
      t = raiseFault { cause := .registerIndexFault, info := a.toNat } s ∧ t.pc = s.pc) ∧
    (s.rs = .running → CellsAt s [0x54#8, a] → step s = exec (.jmp a) s ∧
      ∀ i : Fin 8, i.val = a.toNat → (s.reg i).toNat = s.pc.toNat → step s = .next s) ∧
    (s.rs = .running → s.pc.toNat = 255 → s.mem.read 255 = 0x54#8 →
      step s = .next (raiseFault { cause := .addressFault, info := 256 } s))

/-- JEQ (R162) is taken exactly when bit 0 of FL (E, the spec's decision D4) is set; not taken, the
register is not checked (the spec's decision D11). -/
def Obligations.JeqJumpsWhenEqualIsSet : Prop :=
  ∀ (s : State) (a : Byte),
    (s.fl.getLsbD 0 = true → ∀ i : Fin 8, i.val = a.toNat → ∃ t, exec (.jeq a) s = .next t ∧
      t = { s with pc := t.pc } ∧ t.pc.toNat = (s.reg i).toNat) ∧
    (s.fl.getLsbD 0 = true → 7 < a.toNat → exec (.jeq a) s =
      .next (raiseFault { cause := .registerIndexFault, info := a.toNat } s)) ∧
    (s.fl.getLsbD 0 = false → exec (.jeq a) s = .next { s with pc := s.pc + 2#9 }) ∧
    (s.rs = .running → CellsAt s [0x55#8, a] → step s = exec (.jeq a) s) ∧
    (s.rs = .running → s.pc.toNat = 255 → s.mem.read 255 = 0x55#8 →
      step s = .next (raiseFault { cause := .addressFault, info := 256 } s))

/-- JNE (R163) is taken exactly when FL is zero in all eight bits, not when E is clear; not taken,
the register is not checked (the spec's decision D11). -/
def Obligations.JneJumpsWhenFlagsAreZero : Prop :=
  ∀ (s : State) (a : Byte),
    (s.fl = 0x00#8 → ∀ i : Fin 8, i.val = a.toNat → ∃ t, exec (.jne a) s = .next t ∧
      t = { s with pc := t.pc } ∧ t.pc.toNat = (s.reg i).toNat) ∧
    (s.fl = 0x00#8 → 7 < a.toNat → exec (.jne a) s =
      .next (raiseFault { cause := .registerIndexFault, info := a.toNat } s)) ∧
    (s.fl ≠ 0x00#8 → exec (.jne a) s = .next { s with pc := s.pc + 2#9 }) ∧
    (s.rs = .running → CellsAt s [0x56#8, a] → step s = exec (.jne a) s) ∧
    (s.rs = .running → s.pc.toNat = 255 → s.mem.read 255 = 0x56#8 →
      step s = .next (raiseFault { cause := .addressFault, info := 256 } s))

/-- Every jump that succeeds replaces PC with the register's value, an absolute address 0 to 255, writes
no register, and checks nothing about the target: a target that holds no opcode, or whose instruction
runs past address 255, faults at the next step, with `fault.pc` equal to the target (R164). The
AddressFault rests on the clamped fetch, the spec's decision D7 (log entry 7), and `fault.pc` on D8 (log
entry 9). -/
def Obligations.JumpsReplacePcWithTheRegister : Prop :=
  ∀ (s : State) (a : Byte) (i : Fin 8) (jump : Instr), i.val = a.toNat →
    (jump = .jmp a ∨ jump = .jeq a ∧ equalSet s.fl = true ∨ jump = .jne a ∧ flagsClear s.fl = true) →
    ∃ t, exec jump s = .next t ∧ t.pc.toNat = (s.reg i).toNat ∧ t.pc.toNat ≤ 255 ∧
      (∀ j : Fin 8, t.reg j = s.reg j) ∧ t = { s with pc := t.pc } ∧
      (s.rs = .running → opcodeWidth (s.mem.read t.pc.toNat) = none →
        ∃ u, step t = .next u ∧ u.fault.pc = t.pc ∧ u.fault.cause = .unknownInstruction) ∧
      (∀ w, s.rs = .running → opcodeWidth (s.mem.read t.pc.toNat) = some w →
        256 < t.pc.toNat + w →
        ∃ u, step t = .next u ∧ u.fault.pc = t.pc ∧ u.fault.cause = .addressFault)

/-- A step that completes leaves PC at the next instruction, the old PC plus the width, without wrapping,
or at the jump target; and only HLT makes the run state HALTED (R26). That PC reaches 256 and does not
wrap is the spec's decision D3 (log entry 7), that a jump not taken completes whatever its operand D11
(log entry 10). -/
def Obligations.PcAfterEveryCompletedStep : Prop :=
  ∀ (i : Instr) (s : State), s.rs = .running → CellsAt s (encode i) →
    (∀ a ∈ accessedOperands i s, a.toNat ≤ 7) →
    ∃ t, step s = .next t ∧ (t.rs = .halted ↔ i = .hlt) ∧
      match i with
      | .hlt => t.pc.toNat = s.pc.toNat + 1
      | .ldi _ _ => t.pc.toNat = s.pc.toNat + 3
      | .prn _ => t.pc.toNat = s.pc.toNat + 2
      | .mul _ _ => t.pc.toNat = s.pc.toNat + 3
      | .cmp _ _ => t.pc.toNat = s.pc.toNat + 3
      | .jeq a =>
        (s.fl.getLsbD 0 = true → ∀ r : Fin 8, r.val = a.toNat → t.pc.toNat = (s.reg r).toNat) ∧
        (s.fl.getLsbD 0 = false → t.pc.toNat = s.pc.toNat + 2)
      | .jne a =>
        (s.fl = 0x00#8 → ∀ r : Fin 8, r.val = a.toNat → t.pc.toNat = (s.reg r).toNat) ∧
        (s.fl ≠ 0x00#8 → t.pc.toNat = s.pc.toNat + 2)
      | .jmp a => ∀ r : Fin 8, r.val = a.toNat → t.pc.toNat = (s.reg r).toNat

/-- R22: an instruction writes no register but the operand_a of LDI and MUL; what it does depends on
no register but those it reads (a register it does not read may hold anything before, and nothing else
is different after); an accessed index above 7 raises RegisterIndexFault with the register file
untouched; and the ALU operation ADD writes the first register only and reads the two only. -/
def Obligations.RegisterAccessOfEveryInstruction : Prop :=
  (∀ (i : Instr) (s t : State) (j : Fin 8), exec i s = .next t → t.reg j ≠ s.reg j →
    ∃ a b : Byte, j.val = a.toNat ∧ (i = .ldi a b ∨ i = .mul a b)) ∧
  (∀ (i : Instr) (s t : State) (j : Fin 8) (v : Byte), exec i s = .next t →
    (∀ a ∈ readOperands i s, j.val ≠ a.toNat) →
    ∃ t', exec i (s.setReg j v) = .next t' ∧ t' = { t with regs := t'.regs } ∧
      (∀ k : Fin 8, k ≠ j → t'.reg k = t.reg k) ∧
      ((∃ a imm, i = .ldi a imm ∧ j.val = a.toNat) → t'.reg j = t.reg j) ∧
      ((∀ a imm, i = .ldi a imm → j.val ≠ a.toNat) → t'.reg j = v)) ∧
  (∀ (i : Instr) (s : State), (∃ a ∈ accessedOperands i s, 7 < a.toNat) →
    ∃ t, exec i s = .next t ∧ t.fault.cause = .registerIndexFault ∧ ∀ j : Fin 8, t.reg j = s.reg j) ∧
  (∀ (a b : Byte) (i j : Fin 8) (s s' : State), i.val = a.toNat → j.val = b.toNat →
    s'.reg i = s.reg i → s'.reg j = s.reg j → ∃ t t', aluApply .add a b s = .ok t ∧
      aluApply .add a b s' = .ok t' ∧ t'.reg i = t.reg i ∧ ∀ k : Fin 8, k ≠ i → t.reg k = s.reg k)

/-! ### Frames -/

/-- The frame of the instructions that write a register, LDI and MUL: only register operand_a and
PC may change; with an operand above 7 no register does, and the fault register and the run state
change by the fault entry (the spec's decision D8). -/
def Obligations.FrameOfLdiAndMul : Prop :=
  ∀ (i : Instr) (a b : Byte) (s t : State), (i = .ldi a b ∨ i = .mul a b) → exec i s = .next t →
    (∀ j : Fin 8, j.val ≠ a.toNat → t.reg j = s.reg j) ∧
    (7 < a.toNat ∨ i = .mul a b ∧ 7 < b.toNat → (∀ j : Fin 8, t.reg j = s.reg j) ∧ t.pc = s.pc) ∧
    (a.toNat ≤ 7 → (i = .mul a b → b.toNat ≤ 7) → t.fault = s.fault ∧ t.rs = s.rs) ∧
    t.fl = s.fl ∧ t.out = s.out ∧ ∀ x, t.mem.read x = s.mem.read x

/-- The frame of CMP: only FL and PC may change, and by the fault entry the fault register and the
run state (the spec's decision D8), then FL does not. -/
def Obligations.FrameOfCmp : Prop :=
  ∀ (a b : Byte) (s t : State), exec (.cmp a b) s = .next t →
    (∀ j : Fin 8, t.reg j = s.reg j) ∧ t.out = s.out ∧ (∀ x, t.mem.read x = s.mem.read x) ∧
    (a.toNat ≤ 7 → b.toNat ≤ 7 → t.fault = s.fault ∧ t.rs = s.rs) ∧
    (7 < a.toNat ∨ 7 < b.toNat → t.fl = s.fl ∧ t.pc = s.pc)

/-- The frame of PRN: only the output, by one byte at its end, and PC may change, and by the fault
entry the fault register and the run state (the spec's decision D8), then the output does not. -/
def Obligations.FrameOfPrn : Prop :=
  ∀ (a : Byte) (s t : State), exec (.prn a) s = .next t →
    (∀ j : Fin 8, t.reg j = s.reg j) ∧ t.fl = s.fl ∧ (∀ x, t.mem.read x = s.mem.read x) ∧
    (a.toNat ≤ 7 → t.fault = s.fault ∧ t.rs = s.rs ∧ ∃ v, t.out = s.out ++ [v]) ∧
    (7 < a.toNat → t.out = s.out ∧ t.pc = s.pc)

/-- The frame of HLT, JMP, JEQ and JNE: only PC may change, the run state by HLT, and by the fault
entry of a jump the fault register and the run state (the spec's decision D8); a jump that is not
taken accesses no register (D11). -/
def Obligations.FrameOfControlTransfer : Prop :=
  ∀ (i : Instr) (a : Byte) (s t : State),
    (i = .hlt ∨ i = .jmp a ∨ i = .jeq a ∨ i = .jne a) → exec i s = .next t →
    (∀ j : Fin 8, t.reg j = s.reg j) ∧ t.fl = s.fl ∧ t.out = s.out ∧
    (∀ x, t.mem.read x = s.mem.read x) ∧
    ((∀ c ∈ accessedOperands i s, c.toNat ≤ 7) → t.fault = s.fault) ∧
    (i ≠ .hlt → (∀ c ∈ accessedOperands i s, c.toNat ≤ 7) → t.rs = s.rs)

/-- A general register changes only when the instruction at PC is an LDI or a MUL, and then only
that instruction's operand_a (R21, R22). -/
def Obligations.RegistersAreWrittenOnlyByLdiAndMul : Prop :=
  ∀ (s t : State) (j : Fin 8), step s = .next t → t.reg j ≠ s.reg j →
    ∃ a b : Byte, j.val = a.toNat ∧ (CellsAt s [0x82#8, a, b] ∨ CellsAt s [0xA2#8, a, b])

/-! ### Flags -/

/-- R31: CMP is the only writer of FL and overwrites all eight bits, so that its result does not
depend on what FL held; JEQ, which tests bit 0, and JNE, which tests the whole byte, are the only
readers; the ALU operation ADD neither reads nor writes it. -/
def Obligations.FlagsAreWrittenByCmpAndReadByJumpsOnly : Prop :=
  (∀ (i : Instr) (s t : State), (∀ a b, i ≠ .cmp a b) → exec i s = .next t → t.fl = s.fl) ∧
  (∀ (a b : Byte) (s : State) (fl : Byte), a.toNat ≤ 7 → b.toNat ≤ 7 →
    exec (.cmp a b) { s with fl := fl } = exec (.cmp a b) s) ∧
  (∀ (i : Instr) (s t : State) (fl : Byte), (∀ a b, i ≠ .cmp a b) →
    (∀ a, i = .jeq a → fl.getLsbD 0 = s.fl.getLsbD 0) →
    (∀ a, i = .jne a → (fl = 0x00#8 ↔ s.fl = 0x00#8)) →
    exec i s = .next t → exec i { s with fl := fl } = .next { t with fl := fl }) ∧
  (∀ (op : AluOp) (a b : Byte) (s t : State) (fl : Byte), op ≠ .cmp → aluApply op a b s = .ok t →
    t.fl = s.fl ∧ aluApply op a b { s with fl := fl } = .ok { t with fl := fl })

/-- Once FL holds the outcome of a CMP it holds one of the three outcomes for the rest of the run,
and is never 0x00 again (R30, which the spec marks as derived; the bit values are the spec's
decision D4). -/
def Obligations.FlagsStayAnOutcomeOnceCompared : Prop :=
  ∀ (k : Nat) (s t : State), (s.fl = 0x01#8 ∨ s.fl = 0x02#8 ∨ s.fl = 0x04#8) →
    core.run k s = .next t → t.fl = 0x01#8 ∨ t.fl = 0x02#8 ∨ t.fl = 0x04#8

/-- From the first completed CMP on every JNE of the run is not taken, whatever the compared values
were: k steps after a CMP, a JNE at PC goes on to the instruction after it (R166, which the spec
marks as derived). That it does so with an operand above 7 too is the spec's decision D11 (log entry
10), and that no outcome of CMP is zero rests on the bit values of D4 (log entry 5). -/
def Obligations.NoJneIsTakenAfterACompare : Prop :=
  ∀ (k : Nat) (s t u : State) (a b c : Byte), CellsAt s [0xA7#8, a, b] → a.toNat ≤ 7 → b.toNat ≤ 7 →
    step s = .next t → core.run k t = .next u → u.rs = .running → CellsAt u [0x56#8, c] →
      step u = .next { u with pc := u.pc + 2#9 }

/-- After a CMP, JEQ jumps exactly when the two values were equal: it follows the outcome of the
most recent compare (R162; bit 0 for Equal is the spec's decision D4). -/
def Obligations.JeqFollowsTheMostRecentCompare : Prop :=
  ∀ (s : State) (a b c : Byte) (i j l : Fin 8), i.val = a.toNat → j.val = b.toNat →
    l.val = c.toNat → ∃ t u, exec (.cmp a b) s = .next t ∧ exec (.jeq c) t = .next u ∧
      (s.reg i = s.reg j → u.pc.toNat = (s.reg l).toNat) ∧
      (s.reg i ≠ s.reg j → u.pc = s.pc + 5#9)

/-! ### The ALU -/

/-- R130: the ALU checks both indices, in order, before anything is read or written; it then writes
either the first register (ADD, MUL) or FL (CMP), never both and never PC; and it has no state of
its own: what it writes depends on the two register values alone. -/
def Obligations.AluContract : Prop :=
  (∀ (op : AluOp) (a b : Byte) (s : State), 7 < a.toNat →
    aluApply op a b s = .error { cause := .registerIndexFault, info := a.toNat }) ∧
  (∀ (op : AluOp) (a b : Byte) (s : State), a.toNat ≤ 7 → 7 < b.toNat →
    aluApply op a b s = .error { cause := .registerIndexFault, info := b.toNat }) ∧
  (∀ (op : AluOp) (a b : Byte) (i j : Fin 8), i.val = a.toNat → j.val = b.toNat →
    ∀ s : State, ∃ t, aluApply op a b s = .ok t ∧
      (op = .cmp → t = { s with fl := t.fl }) ∧
      (op ≠ .cmp → t = { s with regs := t.regs } ∧ ∀ k : Fin 8, k ≠ i → t.reg k = s.reg k) ∧
      ∀ s' t' : State, s'.reg i = s.reg i → s'.reg j = s.reg j → aluApply op a b s' = .ok t' →
        (op = .cmp → t'.fl = t.fl) ∧ (op ≠ .cmp → t'.reg i = t.reg i))

/-- The ALU operation ADD wraps modulo 256 and writes its first register only (R131); byte 0xA0 is
an unknown opcode, and no instruction is an ADD of any two registers (the spec's decision D12). -/
def Obligations.AluAddWrapsAndHasNoOpcode : Prop :=
  (∀ (a b : Byte) (i j : Fin 8) (s : State), i.val = a.toNat → j.val = b.toNat →
    ∃ t, aluApply .add a b s = .ok t ∧
      (t.reg i).toNat = ((s.reg i).toNat + (s.reg j).toNat) % 256 ∧
      (∀ k : Fin 8, k ≠ i → t.reg k = s.reg k) ∧ t = { s with regs := t.regs }) ∧
  opcodeWidth 0xA0#8 = none ∧
  (∀ (i : Instr) (a b : Byte), a.toNat ≤ 7 → b.toNat ≤ 7 → ∃ s t u : State,
    exec i s = .next t ∧ aluApply .add a b s = .ok u ∧ ∃ k : Fin 8, t.reg k ≠ u.reg k)

/-! ### The output -/

/-- The output grows only by PRN, by exactly the byte of its register, and by nothing else (R35; the
trace as hardware is the spec's decision D13). -/
def Obligations.OutputGrowsOnlyByPrn : Prop :=
  ∀ s t : State, step s = .next t → t.out ≠ s.out →
    ∃ (a : Byte) (i : Fin 8), CellsAt s [0x47#8, a] ∧ i.val = a.toNat ∧ t.out = s.out ++ [s.reg i]

/-- The output is only ever appended to, in every run (R35; the trace as hardware is the spec's
decision D13), by at most one byte a step. -/
def Obligations.OutputIsOnlyAppendedTo : Prop :=
  ∀ (k : Nat) (s t : State), core.run k s = .next t →
    ∃ tail, t.out = s.out ++ tail ∧ tail.length ≤ k

/-- No instruction reads the output trace or the fault register: a run from a state that differs in
them makes the same steps, and appends the same bytes (R34, R35; the spec's decisions D8, D13). -/
def Obligations.OutputAndFaultRegisterAreNeverRead : Prop :=
  ∀ (k : Nat) (s t : State) (before : List Byte) (f : FaultReg), core.run k s = .next t →
    ∃ t', core.run k { s with out := before ++ s.out, fault := f } = .next t' ∧
      t' = { t with out := before ++ t.out, fault := t'.fault }

/-! ### The host's side -/

/-- The exit status is 0 exactly for a normal end, distinct for every cause, and absent while the
engine runs (R191, the spec's decision D9). -/
def Obligations.ExitStatusIsZeroExactlyOnNormalEnd : Prop :=
  (∀ s : State, exitStatus s = some 0 ↔ NormalEnd s) ∧
  (∀ s : State, exitStatus s = none ↔ s.rs = .running) ∧
  (∀ s t : State, s.rs = .halted → t.rs = .halted → exitStatus s = exitStatus t →
    s.fault.cause = t.fault.cause)

/-- The text of an output value is its decimal numeral: not empty, decimal digits alone, of that value,
and with no leading zero, so that only the one-digit text begins with 0 (R152, which the spec draws from
one example). -/
def Obligations.RenderedOutputIsDecimal : Prop :=
  ∀ v : Byte, decimal v ≠ [] ∧
    (decimal v).foldl (fun n c => 10 * n + (c.toNat - 48)) 0 = v.toNat ∧
    (∀ c ∈ decimal v, 48 ≤ c.toNat ∧ c.toNat ≤ 57) ∧
    ((decimal v).head? = some '0' → decimal v = ['0'])

/-- When the Loader gives an image and when each load-time fault (R90, R192). A source that cannot be
opened is SourceNotFound, code 2. A significant line of base-2 digits alone whose value is above 255, or
with a character no literal can hold, makes the program MalformedProgram, code 6. When every significant
line parses, at most 256 of them give the image of their values, which boots, and more give
ProgramTooLarge, code 7. Digits of value 0 to 255 parse to that byte, and nothing else is ever answered.
The codes are the spec's decision D9 (log entry 9), the value above 255 D14; the characters a literal can
hold, what a line and white space are, and that a malformed line is reported before the length are the
model's choice, log entry 8. -/
def Obligations.LoaderAnswersAnImageOrALoadFault : Prop :=
  loadSource none = .error .sourceNotFound ∧
  FaultCause.sourceNotFound.code = 2#3 ∧ FaultCause.malformedProgram.code = 6#3 ∧
  FaultCause.programTooLarge.code = 7#3 ∧
  (∀ t : List Char, BinaryDigits t → digitsValue t ≤ 255 →
    parseToken t = .ok (BitVec.ofNat 8 (digitsValue t))) ∧
  ∀ text : List Char,
    (∀ t ∈ significantTokens text,
      (BinaryDigits t ∧ 255 < digitsValue t ∨
        ∃ c ∈ t, c ∉ ['0', '1', 'b', 'B', '_', '+', '-']) →
      loadSource (some text) = .error .malformedProgram) ∧
    (∀ img : List Byte, (significantTokens text).map parseToken = img.map .ok →
      (img.length ≤ 256 → loadSource (some text) = .ok img ∧ ∃ s, State.boot img = some s) ∧
      (256 < img.length → loadSource (some text) = .error .programTooLarge)) ∧
    ((∃ img, loadSource (some text) = .ok img) ∨
      loadSource (some text) = .error .malformedProgram ∨
      loadSource (some text) = .error .programTooLarge)

/-- The Loader reads back an image written in its own format, one token of eight base-2 digits and a
comment on each line: the k-th significant line is the k-th byte of the image (R90; that the Loader is
the host is the spec's decision D14). That a line ends at a line feed alone, so that the comment may hold
any other character, and that a space is white space are the model's choice, log entry 8. -/
def Obligations.LoaderReadsBackWrittenImages : Prop :=
  ∀ (img : List Byte) (comment : List Char), '\n' ∉ comment → img.length ≤ 256 →
    loadSource (some (img.flatMap fun v =>
      ((List.range 8).map fun k => if v.getLsbD (7 - k) then '1' else '0')
        ++ [' ', '#'] ++ comment ++ ['\n'])) = .ok img

/-- The significant tokens of a text, line by line (R90): everything from the first comment marker
onward and the white space around the rest are stripped, a line that is then empty adds no token, and any
other adds what is left. What ends a line and what is white space are the model's choice, log entry
8. -/
def Obligations.SignificantTokensOfASource : Prop :=
  significantTokens [] = [] ∧
  ∀ before token after comment rest : List Char,
    (∀ c ∈ before ++ after, c = ' ' ∨ c = '\t') → '#' ∉ token → '\n' ∉ token → '\n' ∉ comment →
    (∀ c, token.head? = some c ∨ token.getLast? = some c → isBlank c = false) →
    (∀ tail, (tail = [] ∨ tail = '#' :: comment) →
      significantTokens (before ++ token ++ after ++ tail ++ '\n' :: rest) =
        (if token = [] then [] else [token]) ++ significantTokens rest ∧
      significantTokens (before ++ token ++ after ++ tail) = if token = [] then [] else [token])
end

