-- ==== Sys2Proof/Laws/Decode.lean ====
section
/-! SUPPORT. What the decoder's table answers, once: the eight opcodes and their formats. -/

namespace Sys2Proof

/-- Everything the opcode table can answer (R82). -/
theorem formatOf_eq (op : Byte) : formatOf op =
    if op = 0x01#8 then some (.f1 .hlt)
    else if op = 0x82#8 then some (.f3 .ldi)
    else if op = 0x47#8 then some (.f2 .prn)
    else if op = 0xA2#8 then some (.f3 .mul)
    else if op = 0xA7#8 then some (.f3 .cmp)
    else if op = 0x55#8 then some (.f2 .jeq)
    else if op = 0x56#8 then some (.f2 .jne)
    else if op = 0x54#8 then some (.f2 .jmp)
    else none := by
  by_cases h0 : op = 0x01#8
  · subst h0; rfl
  by_cases h1 : op = 0x82#8
  · subst h1; rfl
  by_cases h2 : op = 0x47#8
  · subst h2; rfl
  by_cases h3 : op = 0xA2#8
  · subst h3; rfl
  by_cases h4 : op = 0xA7#8
  · subst h4; rfl
  by_cases h5 : op = 0x55#8
  · subst h5; rfl
  by_cases h6 : op = 0x56#8
  · subst h6; rfl
  by_cases h7 : op = 0x54#8
  · subst h7; rfl
  have e (k : Byte) (h : op ≠ k) : (op == k) = false := by simpa using h
  simp only [formatOf, opcodeTable, List.lookup, e _ h0, e _ h1, e _ h2, e _ h3, e _ h4, e _ h5, e _ h6, e _ h7, if_neg h0, if_neg h1, if_neg h2, if_neg h3, if_neg h4, if_neg h5, if_neg h6, if_neg h7]

@[simp] theorem formatOf_hlt : formatOf 0x01#8 = some (.f1 .hlt) := rfl
@[simp] theorem formatOf_ldi : formatOf 0x82#8 = some (.f3 .ldi) := rfl
@[simp] theorem formatOf_prn : formatOf 0x47#8 = some (.f2 .prn) := rfl
@[simp] theorem formatOf_mul : formatOf 0xA2#8 = some (.f3 .mul) := rfl
@[simp] theorem formatOf_cmp : formatOf 0xA7#8 = some (.f3 .cmp) := rfl
@[simp] theorem formatOf_jeq : formatOf 0x55#8 = some (.f2 .jeq) := rfl
@[simp] theorem formatOf_jne : formatOf 0x56#8 = some (.f2 .jne) := rfl
@[simp] theorem formatOf_jmp : formatOf 0x54#8 = some (.f2 .jmp) := rfl

/-- A format of one byte is HLT's. -/
theorem formatOf_f1 {op : Byte} {i : Instr} (h : formatOf op = some (.f1 i)) :
    op = 0x01#8 ∧ i = .hlt := by
  rw [formatOf_eq] at h
  repeat' split at h
  all_goals simp_all

/-- A format of two bytes builds an instruction that encodes as the opcode and the operand. -/
theorem formatOf_f2 {op : Byte} {make : Byte → Instr} (h : formatOf op = some (.f2 make)) (a : Byte) :
    encode (make a) = [op, a] := by
  rw [formatOf_eq] at h
  repeat' split at h
  all_goals simp_all
  all_goals (subst h; rfl)

/-- A format of three bytes builds an instruction that encodes as the opcode and both operands. -/
theorem formatOf_f3 {op : Byte} {make : Byte → Byte → Instr} (h : formatOf op = some (.f3 make))
    (a b : Byte) : encode (make a b) = [op, a, b] := by
  rw [formatOf_eq] at h
  repeat' split at h
  all_goals simp_all
  all_goals (subst h; rfl)

/-- The check of one register operand. -/
@[simp] theorem regOk_iff (a : Byte) : regOk a = true ↔ a.toNat < 8 := by simp [regOk]

end Sys2Proof
end

