-- ==== Sys2Proof/Laws/Memory.lean ====
section
/-! SUPPORT. What the memory operations do: reading after writing, and that every one of them keeps
the canonical form. -/

namespace Sys2Proof.Machine

@[simp] theorem Memory.read_nil (a : Nat) : Memory.read [] a = Memory.unlisted := rfl

theorem Memory.read_cons (k : Nat) (v : Byte) (m : Memory) (a : Nat) :
    Memory.read ((k, v) :: m) a = if k = a then v else Memory.read m a := rfl

theorem Memory.wfFrom_cons (lo k : Nat) (v : Byte) (m : Memory) :
    Memory.wfFrom lo ((k, v) :: m) = true ↔
      lo ≤ k ∧ k < 256 ∧ v ≠ Memory.unlisted ∧ Memory.wfFrom (k + 1) m = true := by
  simp [Memory.wfFrom, and_assoc]

/-- A canonical list from a higher address on is one from a lower address on. -/
theorem Memory.wfFrom_mono {lo lo' : Nat} (h : lo ≤ lo') :
    ∀ {m : Memory}, Memory.wfFrom lo' m = true → Memory.wfFrom lo m = true
  | [], _ => rfl
  | (k, v) :: m, hm => by
    rw [Memory.wfFrom_cons] at hm ⊢
    exact ⟨h.trans hm.1, hm.2⟩

/-- An address below the first listed one is unlisted. -/
theorem Memory.read_below :
    ∀ {lo : Nat} {m : Memory} {a : Nat}, Memory.wfFrom lo m = true → a < lo →
      m.read a = Memory.unlisted
  | _, [], _, _, _ => rfl
  | lo, (k, v) :: m, a, hm, ha => by
    rw [Memory.wfFrom_cons] at hm
    obtain ⟨h1, _, _, h4⟩ := hm
    rw [Memory.read_cons, if_neg (by omega), Memory.read_below h4 (by omega)]

theorem Memory.wfFrom_consCell {lo a : Nat} {v : Byte} {m : Memory} (h1 : lo ≤ a) (h2 : a < 256)
    (hm : Memory.wfFrom (a + 1) m = true) : Memory.wfFrom lo (Memory.consCell a v m) = true := by
  unfold Memory.consCell
  split
  · exact Memory.wfFrom_mono (by omega) hm
  · rw [Memory.wfFrom_cons]
    exact ⟨h1, h2, ‹_›, hm⟩

theorem Memory.read_consCell {a : Nat} {v : Byte} {m : Memory}
    (hm : Memory.wfFrom (a + 1) m = true) (b : Nat) :
    (Memory.consCell a v m).read b = if b = a then v else m.read b := by
  unfold Memory.consCell
  by_cases hb : b = a
  · subst hb
    split
    · next hv => simp [hv, Memory.read_below hm (Nat.lt_succ_self b)]
    · simp [Memory.read_cons]
  · split
    · simp
    · rw [Memory.read_cons, if_neg (Ne.symm hb)]

theorem Memory.wfFrom_write {a : Nat} {v : Byte} (h2 : a < 256) :
    ∀ {lo : Nat} {m : Memory}, lo ≤ a → Memory.wfFrom lo m = true →
      Memory.wfFrom lo (m.write a v) = true
  | lo, [], h1, _ => Memory.wfFrom_consCell h1 h2 rfl
  | lo, (k, x) :: m, h1, hm => by
    have hk := (Memory.wfFrom_cons ..).1 hm
    unfold Memory.write
    split
    · refine Memory.wfFrom_consCell h1 h2 ?_
      rw [Memory.wfFrom_cons]
      exact ⟨by omega, hk.2⟩
    · split
      · next e => subst e; exact Memory.wfFrom_consCell h1 h2 hk.2.2.2
      · rw [Memory.wfFrom_cons]
        exact ⟨hk.1, hk.2.1, hk.2.2.1, Memory.wfFrom_write h2 (by omega) hk.2.2.2⟩

/-- A write keeps the canonical form. -/
theorem Memory.wf_write {m : Memory} {a : Nat} {v : Byte} (h : a < 256) (hm : m.wf = true) :
    (m.write a v).wf = true := Memory.wfFrom_write h (Nat.zero_le a) hm

theorem Memory.read_write_from {a : Nat} {v : Byte} (b : Nat) :
    ∀ {lo : Nat} {m : Memory}, lo ≤ a → Memory.wfFrom lo m = true →
      (m.write a v).read b = if b = a then v else m.read b
  | _, [], _, _ => Memory.read_consCell rfl b
  | lo, (k, x) :: m, h1, hm => by
    have hk := (Memory.wfFrom_cons ..).1 hm
    unfold Memory.write
    split
    · refine Memory.read_consCell ?_ b
      rw [Memory.wfFrom_cons]
      exact ⟨by omega, hk.2⟩
    · split
      · next e =>
        subst e
        rw [Memory.read_consCell hk.2.2.2, Memory.read_cons]
        by_cases hb : b = a
        · simp [hb]
        · simp [hb, Ne.symm hb]
      · next e1 e2 =>
        rw [Memory.read_cons, Memory.read_write_from b (by omega) hk.2.2.2, Memory.read_cons]
        by_cases hb : b = a
        · subst hb; simp [Ne.symm e2]
        · simp [hb]

/-- Every cell after a write of canonical memory: the written one holds the value, and no other
changes (R52). -/
theorem Memory.read_write {m : Memory} (hm : m.wf = true) (a b : Nat) (v : Byte) :
    (m.write a v).read b = if b = a then v else m.read b :=
  Memory.read_write_from b (Nat.zero_le a) hm

/-- The whole of what `memRead` can answer. -/
theorem memRead_eq (a : Nat) (m : Memory) :
    memRead a m = if a < 256 then .ok (m.read a) else .error { cause := .addressFault, info := a } :=
  rfl

theorem memRead_of_lt {a : Nat} (h : a < 256) (m : Memory) : memRead a m = .ok (m.read a) := if_pos h

theorem memRead_of_ge {a : Nat} (h : 256 ≤ a) (m : Memory) :
    memRead a m = .error { cause := .addressFault, info := a } := if_neg (Nat.not_lt.2 h)

/-- `memWrite` keeps the canonical form. -/
theorem memWrite_wf {a : Nat} {v : Byte} {m m' : Memory} (hm : m.wf = true)
    (h : memWrite a v m = .ok m') : m'.wf = true := by
  unfold memWrite at h
  split at h
  · cases h; exact Memory.wf_write ‹_› hm
  · cases h

/-- The image load keeps the canonical form. -/
theorem loadFrom_wf : ∀ {img : List Byte} {k : Nat} {m m' : Memory}, m.wf = true →
    loadFrom k img m = .ok m' → m'.wf = true
  | [], _, _, _, hm, h => by cases h; exact hm
  | v :: rest, k, m, m', hm, h => by
    unfold loadFrom at h
    cases hw : memWrite k v m with
    | error r => rw [hw] at h; cases h
    | ok m1 => rw [hw] at h; exact loadFrom_wf (memWrite_wf hm hw) h

/-- `placeBytes` keeps the canonical form. -/
theorem placeBytes_wf : ∀ {bs : List Byte} {a : Nat} {m : Memory}, m.wf = true →
    (placeBytes a bs m).wf = true
  | [], _, _, hm => hm
  | v :: rest, a, m, hm => by
    unfold placeBytes
    refine placeBytes_wf ?_
    split
    · exact Memory.wf_write ‹_› hm
    · exact hm

/-- Reset memory is in the canonical form. -/
theorem State.reset_mem_wf : State.reset.mem.wf = true := rfl

end Sys2Proof.Machine
end

