-- ==== Sys2Proof/Laws/State.lean ====
section
/-! SUPPORT. One lemma for each field of State under each update, so that no later proof unfolds a
record update. -/

namespace Sys2Proof.Machine

@[simp] theorem State.setReg_regs (s : State) (i : Fin 8) (v : Byte) : (s.setReg i v).regs = s.regs.set i.val v := rfl
@[simp] theorem State.setReg_pc (s : State) (i : Fin 8) (v : Byte) : (s.setReg i v).pc = s.pc := rfl
@[simp] theorem State.setReg_fl (s : State) (i : Fin 8) (v : Byte) : (s.setReg i v).fl = s.fl := rfl
@[simp] theorem State.setReg_rs (s : State) (i : Fin 8) (v : Byte) : (s.setReg i v).rs = s.rs := rfl
@[simp] theorem State.setReg_fault (s : State) (i : Fin 8) (v : Byte) : (s.setReg i v).fault = s.fault := rfl
@[simp] theorem State.setReg_mem (s : State) (i : Fin 8) (v : Byte) : (s.setReg i v).mem = s.mem := rfl
@[simp] theorem State.setReg_out (s : State) (i : Fin 8) (v : Byte) : (s.setReg i v).out = s.out := rfl

@[simp] theorem State.advance_regs (s : State) (w : Nat) : (s.advance w).regs = s.regs := rfl
@[simp] theorem State.advance_pc (s : State) (w : Nat) : (s.advance w).pc = s.pc + BitVec.ofNat 9 w := rfl
@[simp] theorem State.advance_fl (s : State) (w : Nat) : (s.advance w).fl = s.fl := rfl
@[simp] theorem State.advance_rs (s : State) (w : Nat) : (s.advance w).rs = s.rs := rfl
@[simp] theorem State.advance_fault (s : State) (w : Nat) : (s.advance w).fault = s.fault := rfl
@[simp] theorem State.advance_mem (s : State) (w : Nat) : (s.advance w).mem = s.mem := rfl
@[simp] theorem State.advance_out (s : State) (w : Nat) : (s.advance w).out = s.out := rfl

@[simp] theorem State.setPc_regs (s : State) (target : PcWord) : (s.setPc target).regs = s.regs := rfl
@[simp] theorem State.setPc_pc (s : State) (target : PcWord) : (s.setPc target).pc = target := rfl
@[simp] theorem State.setPc_fl (s : State) (target : PcWord) : (s.setPc target).fl = s.fl := rfl
@[simp] theorem State.setPc_rs (s : State) (target : PcWord) : (s.setPc target).rs = s.rs := rfl
@[simp] theorem State.setPc_fault (s : State) (target : PcWord) : (s.setPc target).fault = s.fault := rfl
@[simp] theorem State.setPc_mem (s : State) (target : PcWord) : (s.setPc target).mem = s.mem := rfl
@[simp] theorem State.setPc_out (s : State) (target : PcWord) : (s.setPc target).out = s.out := rfl

@[simp] theorem State.setFl_regs (s : State) (v : Byte) : (s.setFl v).regs = s.regs := rfl
@[simp] theorem State.setFl_pc (s : State) (v : Byte) : (s.setFl v).pc = s.pc := rfl
@[simp] theorem State.setFl_fl (s : State) (v : Byte) : (s.setFl v).fl = v := rfl
@[simp] theorem State.setFl_rs (s : State) (v : Byte) : (s.setFl v).rs = s.rs := rfl
@[simp] theorem State.setFl_fault (s : State) (v : Byte) : (s.setFl v).fault = s.fault := rfl
@[simp] theorem State.setFl_mem (s : State) (v : Byte) : (s.setFl v).mem = s.mem := rfl
@[simp] theorem State.setFl_out (s : State) (v : Byte) : (s.setFl v).out = s.out := rfl

@[simp] theorem State.emit_regs (s : State) (v : Byte) : (s.emit v).regs = s.regs := rfl
@[simp] theorem State.emit_pc (s : State) (v : Byte) : (s.emit v).pc = s.pc := rfl
@[simp] theorem State.emit_fl (s : State) (v : Byte) : (s.emit v).fl = s.fl := rfl
@[simp] theorem State.emit_rs (s : State) (v : Byte) : (s.emit v).rs = s.rs := rfl
@[simp] theorem State.emit_fault (s : State) (v : Byte) : (s.emit v).fault = s.fault := rfl
@[simp] theorem State.emit_mem (s : State) (v : Byte) : (s.emit v).mem = s.mem := rfl
@[simp] theorem State.emit_out (s : State) (v : Byte) : (s.emit v).out = s.out ++ [v] := rfl

@[simp] theorem State.halt_regs (s : State) : (s.halt).regs = s.regs := rfl
@[simp] theorem State.halt_pc (s : State) : (s.halt).pc = s.pc := rfl
@[simp] theorem State.halt_fl (s : State) : (s.halt).fl = s.fl := rfl
@[simp] theorem State.halt_rs (s : State) : (s.halt).rs = .halted := rfl
@[simp] theorem State.halt_fault (s : State) : (s.halt).fault = s.fault := rfl
@[simp] theorem State.halt_mem (s : State) : (s.halt).mem = s.mem := rfl
@[simp] theorem State.halt_out (s : State) : (s.halt).out = s.out := rfl

@[simp] theorem raiseFault_regs (r : Raised) (s : State) :
    (raiseFault r s).regs = s.regs := rfl
@[simp] theorem raiseFault_pc (r : Raised) (s : State) :
    (raiseFault r s).pc = s.pc := rfl
@[simp] theorem raiseFault_fl (r : Raised) (s : State) :
    (raiseFault r s).fl = s.fl := rfl
@[simp] theorem raiseFault_rs (r : Raised) (s : State) :
    (raiseFault r s).rs = .halted := rfl
@[simp] theorem raiseFault_fault (r : Raised) (s : State) :
    (raiseFault r s).fault = { cause := r.cause, pc := s.pc, info := BitVec.ofNat 9 r.info } := rfl
@[simp] theorem raiseFault_mem (r : Raised) (s : State) :
    (raiseFault r s).mem = s.mem := rfl
@[simp] theorem raiseFault_out (r : Raised) (s : State) :
    (raiseFault r s).out = s.out := rfl

@[simp] theorem State.reg_setReg_same (s : State) (i : Fin 8) (v : Byte) :
    (s.setReg i v).reg i = v := by
  simp [State.reg]

theorem State.reg_setReg_other (s : State) (i j : Fin 8) (v : Byte) (h : j ≠ i) :
    (s.setReg i v).reg j = s.reg j := by
  have h' : i.val ≠ j.val := fun e => h (Fin.ext e.symm)
  simp [State.reg, Vector.getElem_set_ne _ _ h']

/-- Every register after a register write. -/
theorem State.reg_setReg (s : State) (i j : Fin 8) (v : Byte) :
    (s.setReg i v).reg j = if j = i then v else s.reg j := by
  by_cases h : j = i
  · subst h; simp
  · simp [h, State.reg_setReg_other]

@[simp] theorem State.reg_advance (s : State) (w : Nat) (i : Fin 8) :
    (s.advance w).reg i = s.reg i := rfl
@[simp] theorem State.reg_setPc (s : State) (t : PcWord) (i : Fin 8) :
    (s.setPc t).reg i = s.reg i := rfl
@[simp] theorem State.reg_setFl (s : State) (v : Byte) (i : Fin 8) :
    (s.setFl v).reg i = s.reg i := rfl
@[simp] theorem State.reg_emit (s : State) (v : Byte) (i : Fin 8) :
    (s.emit v).reg i = s.reg i := rfl
@[simp] theorem State.reg_halt (s : State) (i : Fin 8) : s.halt.reg i = s.reg i := rfl
@[simp] theorem State.reg_raiseFault (r : Raised) (s : State) (i : Fin 8) :
    (raiseFault r s).reg i = s.reg i := rfl

end Sys2Proof.Machine
end

