-- ==== Sys2Proof/Laws/Ops.lean ====
section
/-! SUPPORT. One spec lemma for each shared operation and each meaning: what it answers, cited by
later proofs instead of its definition. -/

namespace Sys2Proof.Machine

/-! ### Operands, ALU, jumps -/

theorem regCheck_of_eq {a : Byte} {i : Fin 8} (h : i.val = a.toNat) : regCheck a = .ok i := by
  have hlt : a.toNat < 8 := h ▸ i.isLt
  simp only [regCheck, dif_pos hlt]
  exact congrArg _ (Fin.ext h.symm)

theorem regCheck_of_gt {a : Byte} (h : 7 < a.toNat) :
    regCheck a = .error { cause := .registerIndexFault, info := a.toNat } :=
  dif_neg (Nat.not_lt.2 h)

/-- A register operand either names a register or is above 7. -/
theorem operand_cases (a : Byte) : (∃ i : Fin 8, i.val = a.toNat) ∨ 7 < a.toNat := by
  rcases Nat.lt_or_ge a.toNat 8 with h | h
  · exact .inl ⟨⟨a.toNat, h⟩, rfl⟩
  · exact .inr h

theorem readOperand_of_eq {a : Byte} {i : Fin 8} (h : i.val = a.toNat) (s : State) :
    readOperand a s = .ok (s.reg i) := by
  simp [readOperand, regCheck_of_eq h, Except.map]

theorem readOperand_of_gt {a : Byte} (h : 7 < a.toNat) (s : State) :
    readOperand a s = .error { cause := .registerIndexFault, info := a.toNat } := by
  simp [readOperand, regCheck_of_gt h, Except.map]

/-- What an ALU operation writes when both operands name registers. -/
def aluEffect (op : AluOp) (i j : Fin 8) (s : State) : State :=
  match op with
  | .add => s.setReg i (aluAdd (s.reg i) (s.reg j))
  | .mul => s.setReg i (aluMul (s.reg i) (s.reg j))
  | .cmp => s.setFl (compareFlags (s.reg i) (s.reg j))

theorem aluApply_of_eq {a b : Byte} {i j : Fin 8} (hi : i.val = a.toNat) (hj : j.val = b.toNat)
    (op : AluOp) (s : State) : aluApply op a b s = .ok (aluEffect op i j s) := by
  simp only [aluApply, regCheck_of_eq hi, regCheck_of_eq hj, bind, Except.bind]
  cases op <;> rfl

theorem aluApply_of_gt_left {a : Byte} (h : 7 < a.toNat) (op : AluOp) (b : Byte) (s : State) :
    aluApply op a b s = .error { cause := .registerIndexFault, info := a.toNat } := by
  simp only [aluApply, regCheck_of_gt h, bind, Except.bind]

theorem aluApply_of_gt_right {a b : Byte} {i : Fin 8} (hi : i.val = a.toNat) (h : 7 < b.toNat)
    (op : AluOp) (s : State) :
    aluApply op a b s = .error { cause := .registerIndexFault, info := b.toNat } := by
  simp only [aluApply, regCheck_of_eq hi, regCheck_of_gt h, bind, Except.bind]

@[simp] theorem commit_ok (s t : State) : commit s (.ok t) = t := rfl
@[simp] theorem commit_error (s : State) (r : Raised) : commit s (.error r) = raiseFault r s := rfl

theorem jumpIf_false (a : Byte) (s : State) : jumpIf false a s = s.advance 2 := rfl

theorem jumpIf_true_of_eq {a : Byte} {i : Fin 8} (h : i.val = a.toNat) (s : State) :
    jumpIf true a s = s.setPc (jumpTarget (s.reg i)) := by
  simp [jumpIf, readOperand_of_eq h, Except.map]

theorem jumpIf_true_of_gt {a : Byte} (h : 7 < a.toNat) (s : State) :
    jumpIf true a s = raiseFault { cause := .registerIndexFault, info := a.toNat } s := by
  simp [jumpIf, readOperand_of_gt h, Except.map]

theorem jumpTarget_toNat (v : Byte) : (jumpTarget v).toNat = v.toNat := by
  have := v.isLt
  simp [jumpTarget]
  omega

theorem aluMul_toNat (x y : Byte) : (aluMul x y).toNat = x.toNat * y.toNat % 256 := by
  simp [aluMul]

theorem aluAdd_toNat (x y : Byte) : (aluAdd x y).toNat = (x.toNat + y.toNat) % 256 := by
  simp [aluAdd]

/-! ### The meanings

`regFault a` below is the fault entry of an operand byte above 7. -/

/-- RegisterIndexFault with the operand byte `a`, entered from `s`. -/
abbrev regFault (a : Byte) (s : State) : State :=
  raiseFault { cause := .registerIndexFault, info := a.toNat } s

theorem exec_hlt (s : State) : exec .hlt s = .next (s.halt.advance 1) := rfl

theorem exec_ldi {a : Byte} {i : Fin 8} (h : i.val = a.toNat) (imm : Byte) (s : State) :
    exec (.ldi a imm) s = .next ((s.setReg i imm).advance 3) := by
  simp [exec, execLdi, regCheck_of_eq h, Except.map]

theorem exec_ldi_fault {a : Byte} (h : 7 < a.toNat) (imm : Byte) (s : State) :
    exec (.ldi a imm) s = .next (regFault a s) := by
  simp [exec, execLdi, regCheck_of_gt h, Except.map]

theorem exec_prn {a : Byte} {i : Fin 8} (h : i.val = a.toNat) (s : State) :
    exec (.prn a) s = .next ((s.emit (s.reg i)).advance 2) := by
  simp [exec, execPrn, readOperand_of_eq h, Except.map]

theorem exec_prn_fault {a : Byte} (h : 7 < a.toNat) (s : State) :
    exec (.prn a) s = .next (regFault a s) := by
  simp [exec, execPrn, readOperand_of_gt h, Except.map]

theorem exec_mul {a b : Byte} {i j : Fin 8} (hi : i.val = a.toNat) (hj : j.val = b.toNat)
    (s : State) :
    exec (.mul a b) s = .next ((s.setReg i (aluMul (s.reg i) (s.reg j))).advance 3) := by
  simp [exec, execMul, aluApply_of_eq hi hj, Except.map, aluEffect]

theorem exec_mul_fault_left {a : Byte} (h : 7 < a.toNat) (b : Byte) (s : State) :
    exec (.mul a b) s = .next (regFault a s) := by
  simp [exec, execMul, aluApply_of_gt_left h, Except.map]

theorem exec_mul_fault_right {a b : Byte} {i : Fin 8} (hi : i.val = a.toNat) (h : 7 < b.toNat)
    (s : State) : exec (.mul a b) s = .next (regFault b s) := by
  simp [exec, execMul, aluApply_of_gt_right hi h, Except.map]

theorem exec_cmp {a b : Byte} {i j : Fin 8} (hi : i.val = a.toNat) (hj : j.val = b.toNat)
    (s : State) :
    exec (.cmp a b) s = .next ((s.setFl (compareFlags (s.reg i) (s.reg j))).advance 3) := by
  simp [exec, execCmp, aluApply_of_eq hi hj, Except.map, aluEffect]

theorem exec_cmp_fault_left {a : Byte} (h : 7 < a.toNat) (b : Byte) (s : State) :
    exec (.cmp a b) s = .next (regFault a s) := by
  simp [exec, execCmp, aluApply_of_gt_left h, Except.map]

theorem exec_cmp_fault_right {a b : Byte} {i : Fin 8} (hi : i.val = a.toNat) (h : 7 < b.toNat)
    (s : State) : exec (.cmp a b) s = .next (regFault b s) := by
  simp [exec, execCmp, aluApply_of_gt_right hi h, Except.map]

theorem exec_jmp {a : Byte} {i : Fin 8} (h : i.val = a.toNat) (s : State) :
    exec (.jmp a) s = .next (s.setPc (jumpTarget (s.reg i))) :=
  congrArg _ (jumpIf_true_of_eq h s)

theorem exec_jmp_fault {a : Byte} (h : 7 < a.toNat) (s : State) :
    exec (.jmp a) s = .next (regFault a s) :=
  congrArg _ (jumpIf_true_of_gt h s)

theorem exec_jeq_taken {a : Byte} {i : Fin 8} {s : State} (c : equalSet s.fl = true)
    (h : i.val = a.toNat) : exec (.jeq a) s = .next (s.setPc (jumpTarget (s.reg i))) := by
  simp only [exec, execJeq, c, jumpIf_true_of_eq h]

theorem exec_jeq_fault {a : Byte} {s : State} (c : equalSet s.fl = true) (h : 7 < a.toNat) :
    exec (.jeq a) s = .next (regFault a s) := by
  simp only [exec, execJeq, c, jumpIf_true_of_gt h]

theorem exec_jeq_not {s : State} (c : equalSet s.fl = false) (a : Byte) :
    exec (.jeq a) s = .next (s.advance 2) := by
  simp only [exec, execJeq, c, jumpIf_false]

theorem exec_jne_taken {a : Byte} {i : Fin 8} {s : State} (c : flagsClear s.fl = true)
    (h : i.val = a.toNat) : exec (.jne a) s = .next (s.setPc (jumpTarget (s.reg i))) := by
  simp only [exec, execJne, c, jumpIf_true_of_eq h]

theorem exec_jne_fault {a : Byte} {s : State} (c : flagsClear s.fl = true) (h : 7 < a.toNat) :
    exec (.jne a) s = .next (regFault a s) := by
  simp only [exec, execJne, c, jumpIf_true_of_gt h]

theorem exec_jne_not {s : State} (c : flagsClear s.fl = false) (a : Byte) :
    exec (.jne a) s = .next (s.advance 2) := by
  simp only [exec, execJne, c, jumpIf_false]

/-! ### What one instruction can do -/

/-- Every way an instruction can leave the state (R22, R26, R31, R183). -/
inductive Effect (s : State) : Instr → State → Prop where
  | hlt : Effect s .hlt (s.halt.advance 1)
  | ldi {a : Byte} (i : Fin 8) (h : i.val = a.toNat) (imm : Byte) :
      Effect s (.ldi a imm) ((s.setReg i imm).advance 3)
  | prn {a : Byte} (i : Fin 8) (h : i.val = a.toNat) :
      Effect s (.prn a) ((s.emit (s.reg i)).advance 2)
  | mul {a b : Byte} (i j : Fin 8) (hi : i.val = a.toNat) (hj : j.val = b.toNat) :
      Effect s (.mul a b) ((s.setReg i (aluMul (s.reg i) (s.reg j))).advance 3)
  | cmp {a b : Byte} (i j : Fin 8) (hi : i.val = a.toNat) (hj : j.val = b.toNat) :
      Effect s (.cmp a b) ((s.setFl (compareFlags (s.reg i) (s.reg j))).advance 3)
  | jmp {a : Byte} (i : Fin 8) (h : i.val = a.toNat) :
      Effect s (.jmp a) (s.setPc (jumpTarget (s.reg i)))
  | jeqTaken {a : Byte} (i : Fin 8) (h : i.val = a.toNat) (c : equalSet s.fl = true) :
      Effect s (.jeq a) (s.setPc (jumpTarget (s.reg i)))
  | jeqNot {a : Byte} (c : equalSet s.fl = false) : Effect s (.jeq a) (s.advance 2)
  | jneTaken {a : Byte} (i : Fin 8) (h : i.val = a.toNat) (c : flagsClear s.fl = true) :
      Effect s (.jne a) (s.setPc (jumpTarget (s.reg i)))
  | jneNot {a : Byte} (c : flagsClear s.fl = false) : Effect s (.jne a) (s.advance 2)
  | regFault {i : Instr} {a : Byte} (ha : a ∈ accessedOperands i s) (h : 7 < a.toNat) :
      Effect s i (regFault a s)

theorem accessed_jeq {s : State} (c : equalSet s.fl = true) (a : Byte) :
    a ∈ accessedOperands (.jeq a) s := by
  have c' : s.fl.getLsbD 0 = true := c
  simp only [accessedOperands, c', if_true, List.mem_singleton]

theorem accessed_jne {s : State} (c : flagsClear s.fl = true) (a : Byte) :
    a ∈ accessedOperands (.jne a) s := by
  have c' : s.fl = 0x00#8 := of_decide_eq_true c
  simp only [accessedOperands, c', if_true, List.mem_singleton]

/-- An instruction always has a next state, and it is one of these. -/
theorem exec_effect (i : Instr) (s : State) : ∃ t, exec i s = .next t ∧ Effect s i t := by
  cases i with
  | hlt => exact ⟨_, rfl, .hlt⟩
  | ldi a imm =>
    obtain ⟨i, h⟩ | h := operand_cases a
    · exact ⟨_, exec_ldi h imm s, .ldi i h imm⟩
    · exact ⟨_, exec_ldi_fault h imm s, .regFault (by simp [accessedOperands]) h⟩
  | prn a =>
    obtain ⟨i, h⟩ | h := operand_cases a
    · exact ⟨_, exec_prn h s, .prn i h⟩
    · exact ⟨_, exec_prn_fault h s, .regFault (by simp [accessedOperands]) h⟩
  | mul a b =>
    obtain ⟨i, hi⟩ | h := operand_cases a
    · obtain ⟨j, hj⟩ | h := operand_cases b
      · exact ⟨_, exec_mul hi hj s, .mul i j hi hj⟩
      · exact ⟨_, exec_mul_fault_right hi h s, .regFault (by simp [accessedOperands]) h⟩
    · exact ⟨_, exec_mul_fault_left h b s, .regFault (by simp [accessedOperands]) h⟩
  | cmp a b =>
    obtain ⟨i, hi⟩ | h := operand_cases a
    · obtain ⟨j, hj⟩ | h := operand_cases b
      · exact ⟨_, exec_cmp hi hj s, .cmp i j hi hj⟩
      · exact ⟨_, exec_cmp_fault_right hi h s, .regFault (by simp [accessedOperands]) h⟩
    · exact ⟨_, exec_cmp_fault_left h b s, .regFault (by simp [accessedOperands]) h⟩
  | jmp a =>
    obtain ⟨i, h⟩ | h := operand_cases a
    · exact ⟨_, exec_jmp h s, .jmp i h⟩
    · exact ⟨_, exec_jmp_fault h s, .regFault (by simp [accessedOperands]) h⟩
  | jeq a =>
    cases c : equalSet s.fl with
    | false => exact ⟨_, exec_jeq_not c a, .jeqNot c⟩
    | true =>
      obtain ⟨i, h⟩ | h := operand_cases a
      · exact ⟨_, exec_jeq_taken c h, .jeqTaken i h c⟩
      · exact ⟨_, exec_jeq_fault c h, .regFault (accessed_jeq c a) h⟩
  | jne a =>
    cases c : flagsClear s.fl with
    | false => exact ⟨_, exec_jne_not c a, .jneNot c⟩
    | true =>
      obtain ⟨i, h⟩ | h := operand_cases a
      · exact ⟨_, exec_jne_taken c h, .jneTaken i h c⟩
      · exact ⟨_, exec_jne_fault c h, .regFault (accessed_jne c a) h⟩

/-- Inversion of `exec`: its next state is one of the effects. -/
theorem effect_of_exec {i : Instr} {s t : State} (h : exec i s = .next t) : Effect s i t := by
  obtain ⟨u, hu, he⟩ := exec_effect i s
  rw [h] at hu
  cases hu
  exact he

end Sys2Proof.Machine
end

