-- ==== Sys2Proof/Laws/PerInstr.lean ====
section
/-! SUPPORT. A statement about every instruction as syntax, with one lemma per constructor. -/

namespace Sys2Proof.Laws.EncodeWidth

/-- An instruction encodes to as many bytes as its width, and its first byte alone gives that width
(R83). -/
def Statement (i : Instr) : Prop :=
  (encode i).length = i.width ∧ (encode i).head?.bind opcodeWidth = some i.width

theorem hlt : Statement .hlt := ⟨rfl, rfl⟩
theorem ldi (a imm : Byte) : Statement (.ldi a imm) := ⟨rfl, rfl⟩
theorem prn (a : Byte) : Statement (.prn a) := ⟨rfl, rfl⟩
theorem mul (a b : Byte) : Statement (.mul a b) := ⟨rfl, rfl⟩
theorem cmp (a b : Byte) : Statement (.cmp a b) := ⟨rfl, rfl⟩
theorem jeq (a : Byte) : Statement (.jeq a) := ⟨rfl, rfl⟩
theorem jne (a : Byte) : Statement (.jne a) := ⟨rfl, rfl⟩
theorem jmp (a : Byte) : Statement (.jmp a) := ⟨rfl, rfl⟩

end Sys2Proof.Laws.EncodeWidth
end

