-- ==== Sys2Proof/Laws/Step.lean ====
section
/-! SUPPORT. What the fetch and the step can answer, once each: the inversion lemmas every claim
about the machine cites. -/

namespace Sys2Proof.Machine

/-! ### Cells at PC -/

theorem cellsAt_one {s : State} {v : Byte} :
    CellsAt s [v] ↔ s.pc.toNat + 1 ≤ 256 ∧ s.mem.read s.pc.toNat = v := by
  refine ⟨fun ⟨h, k⟩ => ⟨h, ?_⟩, fun ⟨h, e⟩ => ⟨h, ?_⟩⟩
  · simpa [eq_comm] using k 0 (by simp)
  · intro k hk
    obtain rfl : k = 0 := by simpa using hk
    simp [e]

theorem cellsAt_two {s : State} {v w : Byte} :
    CellsAt s [v, w] ↔ s.pc.toNat + 2 ≤ 256 ∧ s.mem.read s.pc.toNat = v ∧
      s.mem.read (s.pc.toNat + 1) = w := by
  refine ⟨fun ⟨h, k⟩ => ⟨h, ?_, ?_⟩, fun ⟨h, e, e'⟩ => ⟨h, ?_⟩⟩
  · simpa [eq_comm] using k 0 (by simp)
  · simpa [eq_comm] using k 1 (by simp)
  · intro k hk
    have hk : k < 2 := by simpa using hk
    interval_cases k <;> simp [e, e']

theorem cellsAt_three {s : State} {u v w : Byte} :
    CellsAt s [u, v, w] ↔ s.pc.toNat + 3 ≤ 256 ∧ s.mem.read s.pc.toNat = u ∧
      s.mem.read (s.pc.toNat + 1) = v ∧ s.mem.read (s.pc.toNat + 2) = w := by
  refine ⟨fun ⟨h, k⟩ => ⟨h, ?_, ?_, ?_⟩, fun ⟨h, e, e', e''⟩ => ⟨h, ?_⟩⟩
  · simpa [eq_comm] using k 0 (by simp)
  · simpa [eq_comm] using k 1 (by simp)
  · simpa [eq_comm] using k 2 (by simp)
  · intro k hk
    have hk : k < 3 := by simpa using hk
    interval_cases k <;> simp [e, e', e'']

/-! ### Fetch -/

/-- Every way the fetch can end (R111 to R113, in the order of R185). -/
inductive FetchCase (s : State) : Except Raised Instr → Prop where
  | opcodeAddress (h : 256 ≤ s.pc.toNat) :
      FetchCase s (.error { cause := .addressFault, info := s.pc.toNat })
  | unknown (h : s.pc.toNat < 256) (u : formatOf (s.mem.read s.pc.toNat) = none) :
      FetchCase s (.error { cause := .unknownInstruction, info := (s.mem.read s.pc.toNat).toNat })
  | operandA (h : s.pc.toNat = 255)
      (u : ∃ f, formatOf (s.mem.read s.pc.toNat) = some f ∧ 2 ≤ f.width) :
      FetchCase s (.error { cause := .addressFault, info := 256 })
  | operandB (h : s.pc.toNat = 254)
      (u : ∃ make, formatOf (s.mem.read s.pc.toNat) = some (.f3 make)) :
      FetchCase s (.error { cause := .addressFault, info := 256 })
  | fetched (i : Instr) (h : CellsAt s (encode i)) : FetchCase s (.ok i)

theorem fetchInstr_cases (s : State) : FetchCase s (fetchInstr s) := by
  unfold fetchInstr
  rcases Nat.lt_or_ge s.pc.toNat 256 with h | h
  · simp only [memRead_of_lt h, bind, Except.bind]
    cases u : formatOf (s.mem.read s.pc.toNat) with
    | none => exact .unknown h u
    | some f =>
      cases f with
      | f1 i =>
        obtain ⟨e, rfl⟩ := formatOf_f1 u
        exact .fetched _ (cellsAt_one.2 ⟨h, e⟩)
      | f2 make =>
        simp only [fetchOperands, bind, Except.bind]
        rcases Nat.lt_or_ge (s.pc.toNat + 1) 256 with h1 | h1
        · rw [memRead_of_lt h1]
          refine .fetched _ ?_
          rw [formatOf_f2 u]
          exact cellsAt_two.2 ⟨h1, rfl, rfl⟩
        · have h2 : s.pc.toNat = 255 := by omega
          rw [memRead_of_ge h1, h2]
          exact .operandA h2 ⟨_, u, le_refl _⟩
      | f3 make =>
        simp only [fetchOperands, bind, Except.bind]
        rcases Nat.lt_or_ge (s.pc.toNat + 1) 256 with h1 | h1
        · rw [memRead_of_lt h1]
          rcases Nat.lt_or_ge (s.pc.toNat + 2) 256 with h2 | h2
          · simp only [memRead_of_lt h2]
            refine .fetched _ ?_
            rw [formatOf_f3 u]
            exact cellsAt_three.2 ⟨h2, rfl, rfl, rfl⟩
          · have h3 : s.pc.toNat = 254 := by omega
            simp only [h3]
            exact .operandB h3 ⟨_, u⟩
        · have h2 : s.pc.toNat = 255 := by omega
          rw [memRead_of_ge h1, h2]
          exact .operandA h2 ⟨_, u, by simp [Format.width]⟩
  · simp only [memRead_of_ge h, bind, Except.bind]
    exact .opcodeAddress h

/-- The fetch gives the instruction whose bytes stand at PC. -/
theorem fetchInstr_of_cells {s : State} {i : Instr} (h : CellsAt s (encode i)) :
    fetchInstr s = .ok i := by
  cases i <;> simp only [encode] at h <;>
    first
      | (obtain ⟨h0, h1⟩ := cellsAt_one.1 h
         simp [fetchInstr, fetchOperands, memRead_of_lt h0, h1, bind, Except.bind])
      | (obtain ⟨h0, h1, h2⟩ := cellsAt_two.1 h
         simp [fetchInstr, fetchOperands, memRead_of_lt h0,
           memRead_of_lt (Nat.lt_of_succ_lt h0), h1, h2, bind, Except.bind])
      | (obtain ⟨h0, h1, h2, h3⟩ := cellsAt_three.1 h
         simp [fetchInstr, fetchOperands, memRead_of_lt h0,
           memRead_of_lt (Nat.lt_of_succ_lt h0),
           memRead_of_lt (Nat.lt_of_succ_lt (Nat.lt_of_succ_lt h0)), h1, h2, h3, bind, Except.bind])

/-! ### Step -/

theorem step_of_halted {s : State} (h : s.rs = .halted) : step s = .fault .halted := by
  simp [step, h]

theorem step_of_fetch_ok {s : State} {i : Instr} (h : s.rs = .running) (f : fetchInstr s = .ok i) :
    step s = exec i s := by
  simp [step, h, f]

theorem step_of_fetch_error {s : State} {r : Raised} (h : s.rs = .running)
    (f : fetchInstr s = .error r) : step s = .next (raiseFault r s) := by
  simp [step, h, f]

theorem running_of_step {s t : State} (h : step s = .next t) : s.rs = .running := by
  cases hr : s.rs with
  | running => rfl
  | halted => rw [step_of_halted hr] at h; cases h

/-- Everything a step can do: a whole instruction, or the entry of a fault of the fetch. -/
theorem step_cases {s t : State} (h : step s = .next t) :
    s.rs = .running ∧
      ((∃ i, CellsAt s (encode i) ∧ exec i s = .next t ∧ Effect s i t) ∨
       (∃ r, FetchCase s (.error r) ∧ t = raiseFault r s)) := by
  have hr := running_of_step h
  refine ⟨hr, ?_⟩
  have hc := fetchInstr_cases s
  cases hf : fetchInstr s with
  | ok i =>
    rw [hf] at hc
    rw [step_of_fetch_ok hr hf] at h
    cases hc with
    | fetched _ hcells => exact .inl ⟨i, hcells, h, effect_of_exec h⟩
  | error r =>
    rw [hf] at hc
    rw [step_of_fetch_error hr hf] at h
    cases h
    exact .inr ⟨r, hc, rfl⟩

end Sys2Proof.Machine
end

