-- ==== Sys2Proof/Tests/Slice0.lean ====
section
/-! SUPPORT. The model's own tests. Expected results are the spec's: the encodings of
spec/30_encoding.md, the vectors of spec/95_test_vectors.md (named in each comment). The
`test_witness_` theorems show, for each statement with hypotheses, a state and operands that meet
them, clause by clause, at boundary values. -/

namespace Sys2Proof.Tests

open Sys2Proof Sys2Proof.Machine

/-- A RUNNING state with a clear fault register and no output. -/
def tst (pc : PcWord) (fl : Byte) (regs : Vector Byte 8) (mem : Memory) : State :=
  { State.reset with pc := pc, fl := fl, regs := regs, mem := mem }

/-- The registers with the value `v` in register 0, and `w` in register 1. -/
def r01 (v w : Byte) : Vector Byte 8 := #v[v, w, 0, 0, 0, 0, 0, 0]

/-- The next state of an outcome. -/
def nextOf : Host.Outcome State Fault Refusal → Option State
  | .next s => some s
  | .fault _ => none
  | .refused _ => none

/-- What a test looks at in the next state. -/
def after {α : Type} (s : State) (f : State → α) : Option α := (nextOf (step s)).map f

/-- The fault register as the vectors write it: (cause, pc, info). -/
def faultOf (s : State) : Nat × Nat × Nat :=
  (s.fault.cause.code.toNat, s.fault.pc.toNat, s.fault.info.toNat)

/-! ### Decoding: words written out from R81 and R82, bit by bit, the first byte lowest -/

theorem test_decode_hlt : decodeTableWord 8 0b00000001 = some .hlt := by decide
theorem test_decode_ldi : decodeTableWord 24 0b10000000_00000111_10000010 = some (.ldi 7 128) := by
  decide
theorem test_decode_prn : decodeTableWord 16 0b00000011_01000111 = some (.prn 3) := by decide
theorem test_decode_mul : decodeTableWord 24 0b00000010_00000001_10100010 = some (.mul 1 2) := by
  decide
theorem test_decode_cmp : decodeTableWord 24 0b00000010_00000001_10100111 = some (.cmp 1 2) := by
  decide
theorem test_decode_jeq : decodeTableWord 16 0b00000100_01010101 = some (.jeq 4) := by decide
theorem test_decode_jne : decodeTableWord 16 0b00000101_01010110 = some (.jne 5) := by decide
theorem test_decode_jmp : decodeTableWord 16 0b00000110_01010100 = some (.jmp 6) := by decide

/-- The index is the whole byte: an operand above 7 still decodes (L7). -/
theorem test_decode_keeps_whole_operand : decodeTableWord 16 0b11111111_01000111 = some (.prn 255) := by
  decide

/-- K1 to K7: bytes that are no opcode. -/
theorem test_decode_unknown :
    [0x00#8, 0xFF#8, 0xA0#8, 0x02#8, 0x57#8, 0x40#8, 0x81#8].all (fun v => (opcodeWidth v).isNone) := by
  decide

/-- No two rows of the opcode table have the same opcode byte. -/
theorem test_opcodes_distinct : (opcodeTable.map Prod.fst).Nodup := by decide

/-- The fetch window (FETCH_WINDOW) is the longest width of the table. -/
theorem test_fetch_window : (opcodeTable.map fun r => r.2.width).max? = some Config.fetchWindow := by
  decide

/-! ### WellFormed refuses an ill-formed term at each check -/

theorem test_wf_ldi : WellFormed (.ldi 8 0) = false ∧ WellFormed (.ldi 7 255) = true := by decide
theorem test_wf_prn : WellFormed (.prn 8) = false := by decide
theorem test_wf_mul : WellFormed (.mul 8 0) = false ∧ WellFormed (.mul 0 8) = false := by decide
theorem test_wf_cmp : WellFormed (.cmp 8 0) = false ∧ WellFormed (.cmp 0 8) = false := by decide
theorem test_wf_jeq : WellFormed (.jeq 255) = false := by decide
theorem test_wf_jne : WellFormed (.jne 255) = false := by decide
theorem test_wf_jmp : WellFormed (.jmp 8) = false ∧ WellFormed .hlt = true := by decide

/-! ### One step, from the spec's vectors -/

/-- L2: the immediate 0xFF is 255 in R3. -/
theorem test_ldi_l2 : after (tst 0 0 (r01 0 0) [(0, 0x82), (1, 3), (2, 0xFF)])
    (fun t => (t.reg 3, t.pc)) = some (255, 3) := by decide
/-- L7: the index is not masked to three bits. -/
theorem test_ldi_l7 : after (tst 0 0 (r01 0 0) [(0, 0x82), (1, 0xFF), (2, 5)])
    (fun t => (faultOf t, t.reg 7)) = some ((4, 0, 255), 0) := by decide
/-- M3: 65025 mod 256. -/
theorem test_mul_m3 : after (tst 6 4 (r01 255 255) [(6, 0xA2), (8, 1)])
    (fun t => (t.reg 0, t.fl)) = some (1, 4) := by decide
/-- M16: operand_a is reported first. -/
theorem test_mul_m16 : after (tst 6 0 (r01 5 5) [(6, 0xA2), (7, 9), (8, 10)]) faultOf
    = some (4, 6, 9) := by decide
/-- C4 and C5: the comparison is unsigned and replaces the old flag. -/
theorem test_cmp_c4_c5 : after (tst 0 1 (r01 0 255) [(0, 0xA7), (2, 1)]) State.fl = some 4 ∧
    after (tst 0 4 (r01 255 0) [(0, 0xA7), (2, 1)]) State.fl = some 2 := by decide
/-- C9: FL is unchanged by a fault. -/
theorem test_cmp_c9 : after (tst 0 2 (r01 0 0) [(0, 0xA7), (1, 8)]) (fun t => (t.fl, faultOf t))
    = some (2, 4, 0, 8) := by decide
/-- P2: the trace is appended to. -/
theorem test_prn_p2 : after { tst 0 0 (r01 7 7) [(0, 0x47), (1, 2)] with out := [3] } State.out
    = some [3, 0] := by decide
/-- P4: nothing is emitted by a fault. -/
theorem test_prn_p4 : after (tst 0 0 (r01 7 7) [(0, 0x47), (1, 8)]) (fun t => (t.out, faultOf t))
    = some ([], 4, 0, 8) := by decide
/-- H1 and H3: HLT at 5 and at 255. -/
theorem test_hlt_h1_h3 : after (tst 5 0 (r01 0 0) [(5, 1)]) (fun t => (t.rs, t.pc, t.fault))
      = some (.halted, 6, FaultReg.clear) ∧
    after (tst 255 0 (r01 0 0) [(255, 1)]) (fun t => (t.rs, t.pc, t.fault))
      = some (.halted, 256, FaultReg.clear) := by decide
/-- H4: a HALTED state has no step. -/
theorem test_hlt_h4 : step { tst 5 0 (r01 0 0) [(5, 1)] with rs := .halted } = .fault .halted := by
  rfl
/-- J1 and J16: JMP always jumps. -/
theorem test_jmp_j1_j16 : after (tst 10 2 (r01 0 0x20) [(10, 0x54), (11, 1)]) State.pc = some 0x20 ∧
    after (tst 10 2 (r01 0 255) [(10, 0x54), (11, 1)]) State.pc = some 255 := by decide
/-- J11: the register is checked. -/
theorem test_jmp_j11 : after (tst 10 0 (r01 0 0) [(10, 0x54), (11, 8)]) faultOf
    = some (4, 10, 8) := by decide
/-- J2 to J5: JEQ for each legal FL. -/
theorem test_jeq_j2_j5 : [1#8, 2#8, 4#8, 0#8].map (fun fl =>
      after (tst 10 fl (r01 0 0x20) [(10, 0x55), (11, 1)]) State.pc)
    = [some 0x20, some 12, some 12, some 12] := by decide
/-- J13: a JEQ that is not taken checks no register. -/
theorem test_jeq_j13 : after (tst 10 4 (r01 0 0) [(10, 0x55), (11, 8)]) (fun t => (t.pc, t.rs))
    = some (12, .running) := by decide
/-- J6 to J9: JNE is taken only when FL is zero. -/
theorem test_jne_j6_j9 : [0#8, 1#8, 2#8, 4#8].map (fun fl =>
      after (tst 10 fl (r01 0 0x20) [(10, 0x56), (11, 1)]) State.pc)
    = [some 0x20, some 12, some 12, some 12] := by decide
/-- J14: a JNE that is taken checks its register. -/
theorem test_jne_j14 : after (tst 10 0 (r01 0 0) [(10, 0x56), (11, 8)]) faultOf
    = some (4, 10, 8) := by decide

/-! ### ADD as a function of the ALU, unknown opcodes, the top of memory -/

/-- A1 and A7: 200 + 100 and 200 + 200. -/
theorem test_add_a1_a7 :
    (match aluApply .add 0 1 (tst 0 0 (r01 200 100) []) with
      | .ok t => some (t.reg 0, t.reg 1) | .error _ => none) = some (44, 100) ∧
    (match aluApply .add 0 0 (tst 0 0 (r01 200 100) []) with
      | .ok t => some (t.reg 0) | .error _ => none) = some 144 := by decide
/-- K1 and K3: zero is no NOP, 0xA0 is no ADD. -/
theorem test_unknown_k1_k3 : after State.reset faultOf = some (1, 0, 0) ∧
    after (tst 9 0 (r01 1 1) [(9, 0xA0), (10, 1)]) (fun t => (faultOf t, t.pc))
      = some ((1, 9, 0xA0), 9) := by decide
/-- T2, T4, T6 and T7: faults at the last two addresses, in the order of R185. -/
theorem test_top_t2_t4_t6_t7 :
    after (tst 255 0 (r01 0 0) [(255, 0x47)]) faultOf = some (3, 255, 256) ∧
    after (tst 254 0 (r01 0 0) [(254, 0x82), (255, 9)]) faultOf = some (3, 254, 256) ∧
    after (tst 255 0 (r01 0 0) [(255, 0x55)]) faultOf = some (3, 255, 256) ∧
    after (tst 255 0 (r01 0 0) [(255, 0xFF)]) faultOf = some (1, 255, 0xFF) := by decide
/-- T5 and T8: PC goes to 256 and does not wrap. -/
theorem test_top_t5_t8 :
    after (tst 253 0 (r01 0 0) [(253, 0x82), (255, 5)]) (fun t => (t.reg 0, t.pc, t.rs))
      = some (5, 256, .running) ∧
    after (tst 256 0 (r01 0 0) [(0, 1)]) faultOf = some (3, 256, 256) := by decide

/-! ### Memory, image load, the host's side -/

/-- Writing what an unlisted address reads as removes the cell. -/
theorem test_write_zero_removes : Memory.write [(3, 7), (9, 1)] 3 0 = [(9, 1)] := by decide
theorem test_write_keeps_order : Memory.write [(3, 7), (9, 1)] 5 2 = [(3, 7), (5, 2), (9, 1)] := by
  decide
/-- The image load of S1's bytes. -/
theorem test_boot_s1 : (State.boot [0x82, 0, 3, 0x47, 0, 1]).map State.mem
    = some [(0, 0x82), (2, 3), (3, 0x47), (5, 1)] := by decide
/-- S1's source text, with a comment and a blank line, loads to S1's image. -/
theorem test_loader_s1 :
    loadSource (some "10000010 # LDI\n00000000\n 00000011\n\n# PRN\n01000111\n00000000\n00000001".toList)
    = .ok [0x82, 0, 3, 0x47, 0, 1] := by rfl
/-- A token that is no base-2 literal, and one above 255. -/
theorem test_loader_malformed : loadSource (some "102".toList) = .error .malformedProgram ∧
    loadSource (some "100000000".toList) = .error .malformedProgram := ⟨rfl, rfl⟩
/-- R152: the trace [3, 72] is the lines 3 and 72. -/
theorem test_render : render [3, 72] = ["3".toList, "72".toList] := by decide
/-- A table word placed at reset is what the first step runs. -/
theorem test_with_fetch_word : after (State.reset.withFetchWord 24 0x050382) (fun t => t.reg 3)
    = some 5 := by decide

/-! ### Witnesses of the hypotheses -/

theorem test_witness_WidthIsFixedByTheOpcodeByte :
    (tst 255 0 (r01 0 0) [(255, 0xA0)]).rs = .running ∧
    (tst 255 0 (r01 0 0) [(255, 0xA0)]).pc.toNat ≤ 255 ∧
    opcodeWidth ((tst 255 0 (r01 0 0) [(255, 0xA0)]).mem.read 255) = none := by decide

theorem test_witness_TruncatedInstructionsAreRefused :
    (opcodeWidth 0x82#8 = some 3 ∧ [(7 : Byte)].length + 1 < 3) ∧
    (opcodeWidth 0x82#8 = some 3 ∧ 3 ≤ [(7 : Byte), 5].length + 1) := by decide

theorem test_witness_PlacedWordIsWhatTheNextStepRuns :
    (tst 253 0 (r01 0 0) []).rs = .running ∧ (tst 253 0 (r01 0 0) []).pc.toNat + 3 ≤ 256 ∧
    (tst 253 0 (r01 0 0) []).mem.wf = true ∧
    decodeTableWord 24 0b11111111_11111111_10000010 = some (.ldi 255 255) := by decide

theorem test_witness_MemReadContract : (255 < 256) ∧ (256 ≤ 256) := by decide

theorem test_witness_MemWriteContract : Memory.wf [(0, 1), (255, 1)] = true ∧ 255 < 256 ∧ 256 ≤ 256 ∧
    (nextOf (step (tst 0 0 (r01 0 0) [(0, 1)]))).isSome := by decide

theorem test_witness_CanonicalMemoriesThatReadAlikeAreEqual :
    Memory.wf [(0, 1), (255, 255)] = true ∧
    ∀ a, a < 256 → Memory.read [(0, 1), (255, 255)] a = Memory.read [(0, 1), (255, 255)] a :=
  ⟨by decide, fun _ _ => rfl⟩

/-- Images of length 0, 256 and 257, for ImageLoadSetsMemoryOnly and InvariantHoldsAfterImageLoad. -/
theorem test_witness_ImageLoad :
    ([] : List Byte).length ≤ 256 ∧ (List.replicate 256 (1 : Byte)).length ≤ 256 ∧
    256 < (List.replicate 257 (1 : Byte)).length ∧ (State.boot [1, 0]).isSome :=
  ⟨by decide, List.length_replicate.le, by rw [List.length_replicate]; decide, by decide⟩

/-- A RUNNING state at the last place a three-byte instruction fits, with the instruction there. -/
def ldi253 : State := tst 253 0 (r01 0 0) [(253, 0x82), (254, 7), (255, 5)]

/-- A state other than reset that meets the invariant and takes a step. -/
theorem test_witness_EveryStepKeepsTheInvariant : Inv ldi253 ∧ (nextOf (step ldi253)).isSome :=
  ⟨⟨by decide, .inl rfl, by decide, .inl rfl⟩, by decide⟩

theorem test_witness_StepRunsTheDecodedInstruction : ldi253.rs = .running ∧
    CellsAt ldi253 [0x82, 7, 5] ∧ decode [0x82, 7, 5] = .ok (.ldi 7 5, []) :=
  ⟨rfl, cellsAt_three.2 (by decide), rfl⟩

theorem test_witness_StepHasExactlyOneOfTwoOutcomes : ldi253.rs = .running ∧
    ldi253.fault.cause = .none ∧ ({ ldi253 with rs := .halted } : State).rs = .halted := by decide

theorem test_witness_FaultPriority :
    (256 ≤ (tst 256 0 (r01 0 0) []).pc.toNat) ∧
    (opcodeWidth ((tst 255 0 (r01 0 0) [(255, 0xFF)]).mem.read 255) = none) ∧
    (opcodeWidth ((tst 254 0 (r01 0 0) [(254, 0x82)]).mem.read 254) = some 3 ∧ 256 < 254 + 3) ∧
    CellsAt (tst 253 0 (r01 0 0) [(253, 0xA2), (254, 8)]) [0xA2, 8, 0] ∧ 7 < (8 : Byte).toNat ∧
    CellsAt (tst 253 0 (r01 0 0) [(253, 0xA7), (254, 7), (255, 8)]) [0xA7, 7, 8] ∧
    (7 : Byte).toNat ≤ 7 :=
  ⟨by decide, by decide, by decide, cellsAt_three.2 (by decide), by decide,
    cellsAt_three.2 (by decide), by decide⟩

/-- Also the well-formed instruction of WellFormedInstructionsNeverFault. -/
theorem test_witness_RegisterIndexFaultExactlyWhen :
    (accessedOperands (.mul 7 8) State.reset).find? (fun a => decide (7 < a.toNat)) = some 8 ∧
    (∀ a ∈ accessedOperands (.mul 7 7) State.reset, a.toNat ≤ 7) ∧
    (∀ a ∈ accessedOperands (.jeq 8) State.reset, a.toNat ≤ 7) ∧
    WellFormed (.cmp 7 7) = true := by decide

/-- A step that faults, and one that halts by HLT, for HaltsOnlyByHltOrFault too. -/
theorem test_witness_FaultsArePrecise : State.reset.fault = FaultReg.clear ∧
    after State.reset (fun t => decide (t.fault.cause ≠ .none)) = some true ∧
    after (tst 255 0 (r01 0 0) [(255, 1)]) State.rs = some .halted := by decide

theorem test_witness_BytesAfterTheInstructionAreIgnored :
    CellsAt (tst 254 0 (r01 0 0) [(254, 0x47)]) (encode (.prn 0)) ∧
    CellsAt { tst 254 0 (r01 0 0) [(254, 0x47)] with mem := [(3, 3), (254, 0x47)] }
      (encode (.prn 0)) := ⟨cellsAt_two.2 (by decide), cellsAt_two.2 (by decide)⟩

/-- The clauses of the LDI, MUL and CMP statements: operands 7 and 8, the bytes at 253, the opcode
byte alone at 254 and at 255. -/
theorem test_witness_three_byte_instructions :
    (∃ i : Fin 8, i.val = (7 : Byte).toNat) ∧ 7 < (8 : Byte).toNat ∧
    CellsAt ldi253 [0x82, 7, 5] ∧
    CellsAt { ldi253 with mem := [(253, 0xA2), (254, 7), (255, 7)] } [0xA2, 7, 7] ∧
    CellsAt { ldi253 with mem := [(253, 0xA7), (254, 7), (255, 7)] } [0xA7, 7, 7] ∧
    [0x82#8, 0xA2#8, 0xA7#8].all (fun op =>
      (tst 254 0 (r01 0 0) [(254, op)]).mem.read 254 = op ∧
      (tst 255 0 (r01 0 0) [(255, op)]).mem.read 255 = op) :=
  ⟨⟨7, rfl⟩, by decide, cellsAt_three.2 (by decide), cellsAt_three.2 (by decide),
    cellsAt_three.2 (by decide), by decide⟩

/-- The clauses of CMP's outcome: equal, greater, less. -/
theorem test_witness_cmp_outcomes :
    (((5 : Byte).toNat : Int) - (5 : Byte).toNat = 0) ∧
    (((255 : Byte).toNat : Int) - (0 : Byte).toNat > 0) ∧
    (((0 : Byte).toNat : Int) - (255 : Byte).toNat < 0) := by decide

/-- The clauses of the PRN, JMP, JEQ and JNE statements: the bytes at 254, the opcode byte at 255,
and both values of each condition. -/
theorem test_witness_two_byte_instructions :
    CellsAt (tst 254 0 (r01 0 0) [(254, 0x47), (255, 7)]) [0x47, 7] ∧
    CellsAt (tst 254 0 (r01 0 0) [(254, 0x54), (255, 7)]) [0x54, 7] ∧
    CellsAt (tst 254 0 (r01 0 0) [(254, 0x55), (255, 7)]) [0x55, 7] ∧
    CellsAt (tst 254 0 (r01 0 0) [(254, 0x56), (255, 7)]) [0x56, 7] ∧
    [0x47#8, 0x54#8, 0x55#8, 0x56#8].all (fun op =>
      (tst 255 0 (r01 0 0) [(255, op)]).mem.read 255 = op) ∧
    (1 : Byte).getLsbD 0 = true ∧ (2 : Byte).getLsbD 0 = false ∧ (4 : Byte) ≠ 0 :=
  ⟨cellsAt_two.2 (by decide), cellsAt_two.2 (by decide), cellsAt_two.2 (by decide),
    cellsAt_two.2 (by decide), by decide, by decide, by decide, by decide⟩

/-- JMP to its own address (J10). -/
theorem test_witness_jmp_to_itself :
    CellsAt (tst 10 0 (r01 0 10) [(10, 0x54), (11, 1)]) [0x54, 1] ∧
    ((tst 10 0 (r01 0 10) [(10, 0x54), (11, 1)]).reg 1).toNat = 10 :=
  ⟨cellsAt_two.2 (by decide), by decide⟩

theorem test_witness_HltHaltsForGood : (tst 255 0 (r01 0 0) [(255, 1)]).rs = .running ∧
    CellsAt (tst 255 0 (r01 0 0) [(255, 1)]) [0x01] ∧
    (tst 255 0 (r01 0 0) [(255, 1)]).fault = FaultReg.clear :=
  ⟨rfl, cellsAt_one.2 (by decide), rfl⟩

/-- Each kind of jump that succeeds, a target with no opcode, and one whose instruction runs past
address 255. -/
theorem test_witness_JumpsReplacePcWithTheRegister :
    equalSet (1 : Byte) = true ∧ flagsClear (0 : Byte) = true ∧
    opcodeWidth ((tst 10 0 (r01 0 0x20) []).mem.read 0x20) = none ∧
    opcodeWidth ((tst 10 0 (r01 0 255) [(255, 0x47)]).mem.read 255) = some 2 ∧ 256 < 255 + 2 := by
  decide

/-- The premises of the frames: each instruction has a next state, in range and above 7. -/
theorem test_witness_frames :
    [Instr.hlt, .ldi 7 0, .ldi 8 0, .prn 7, .prn 8, .mul 7 7, .mul 7 8, .cmp 7 7, .cmp 8 7, .jmp 7,
      .jmp 8, .jeq 7, .jeq 8, .jne 7, .jne 8].all (fun i => (nextOf (exec i State.reset)).isSome) := by
  decide

/-- For RegistersAreWrittenOnlyByLdiAndMul and OutputGrowsOnlyByPrn. -/
theorem test_witness_RegistersAndOutputChange :
    after ldi253 (fun t => decide (t.reg 7 ≠ ldi253.reg 7)) = some true ∧
    after (tst 254 0 (r01 0 0) [(254, 0x47)]) (fun t => decide (t.out ≠ [])) = some true := by decide

theorem test_witness_FlagsAreWrittenByCmpAndReadByJumpsOnly :
    (3 : Byte).getLsbD 0 = (1 : Byte).getLsbD 0 ∧ ((2 : Byte) = 0 ↔ (4 : Byte) = 0) ∧
    (match aluApply .add 7 7 State.reset with | .ok _ => true | .error _ => false) = true := by decide

theorem test_witness_PcAfterEveryCompletedStep :
    (∀ a ∈ accessedOperands (.ldi 7 5) ldi253, a.toNat ≤ 7) ∧ CellsAt ldi253 (encode (.ldi 7 5)) ∧
    (∀ a ∈ accessedOperands (.jne 8) { ldi253 with fl := 4 }, a.toNat ≤ 7) :=
  ⟨by decide, cellsAt_three.2 (by decide), by decide⟩

theorem test_witness_RegisterAccessOfEveryInstruction :
    (∀ a ∈ readOperands (.mul 7 7) State.reset, (6 : Fin 8).val ≠ a.toNat) ∧
    (∀ a ∈ readOperands (.ldi 7 0) State.reset, (7 : Fin 8).val ≠ a.toNat) ∧
    (∃ a ∈ accessedOperands (.mul 7 8) State.reset, 7 < a.toNat) := by decide

/-- A CMP, and after it a JNE at PC in the same run (the premises of NoJneIsTakenAfterACompare with no
step between them). -/
def cmpThenJne : State := tst 0 0 (r01 1 2) [(0, 0xA7), (2, 1), (3, 0x56)]

theorem test_witness_NoJneIsTakenAfterACompare :
    CellsAt cmpThenJne [0xA7, 0, 1] ∧
    step cmpThenJne = .next { cmpThenJne with fl := 4, pc := 3 } ∧
    core.run 0 { cmpThenJne with fl := 4, pc := 3 } = .next { cmpThenJne with fl := 4, pc := 3 } ∧
    CellsAt { cmpThenJne with fl := 4, pc := 3 } [0x56, 0] :=
  ⟨cellsAt_three.2 (by decide), rfl, rfl, cellsAt_two.2 (by decide)⟩

theorem test_witness_JeqFollowsTheMostRecentCompare :
    (tst 0 0 (r01 9 9) []).reg 0 = (tst 0 0 (r01 9 9) []).reg 1 ∧
    (tst 0 0 (r01 9 8) []).reg 0 ≠ (tst 0 0 (r01 9 8) []).reg 1 := by decide

/-- Operands in range and above 7, for AluAddWrapsAndHasNoOpcode too. -/
theorem test_witness_AluContract :
    (match aluApply .mul 7 7 State.reset with | .ok _ => true | .error _ => false) = true ∧
    (match aluApply .mul 8 7 State.reset with | .ok _ => true | .error _ => false) = false ∧
    (match aluApply .mul 7 8 State.reset with | .ok _ => true | .error _ => false) = false := by decide

/-- A run of several steps, a jump to itself, with FL an outcome of CMP: for MemoryIsConstantInEveryRun,
FlagsStayAnOutcomeOnceCompared, OutputIsOnlyAppendedTo and OutputAndFaultRegisterAreNeverRead. -/
theorem test_witness_runs :
    core.run 2 (tst 0 1 (r01 0 0) [(0, 0x54)]) = .next (tst 0 1 (r01 0 0) [(0, 0x54)]) := by rfl

theorem test_witness_ExitStatus :
    exitStatus { State.reset with rs := .halted } = some 0 ∧ exitStatus State.reset = none := by decide

/-- Each clause at its boundary: values 255 and 256, a character no literal can hold, one line that
parses. -/
theorem test_witness_LoaderAnswersAnImageOrALoadFault :
    BinaryDigits (List.replicate 8 '1') ∧ digitsValue (List.replicate 8 '1') = 255 ∧
    BinaryDigits ('1' :: List.replicate 8 '0') ∧ digitsValue ('1' :: List.replicate 8 '0') = 256 ∧
    significantTokens ['1', '0', '0', '0', '0', '0', '0', '0', '0'] = [['1', '0', '0', '0', '0', '0', '0', '0', '0']] ∧
    '2' ∉ ['0', '1', 'b', 'B', '_', '+', '-'] ∧
    significantTokens ['1', '0', '2'] = [['1', '0', '2']] ∧
    (significantTokens ['1', '\n']).map parseToken = [1#8].map .ok := by
  refine ⟨⟨by simp, by simp⟩, rfl, ⟨by simp, by simp⟩, rfl, rfl, by decide, rfl, rfl⟩

/-- 256 and 257 significant lines that all parse. -/
theorem test_witness_LoaderCapacity : ∀ n ∈ [256, 257],
    (significantTokens (List.replicate n ['1', '\n']).flatten).map parseToken
      = (List.replicate n 1#8).map .ok := by
  have h (n : Nat) : (significantTokens (List.replicate n ['1', '\n']).flatten).map parseToken
      = (List.replicate n 1#8).map .ok := by
    induction n with
    | zero => rfl
    | succ n ih =>
      simp only [List.replicate_succ, List.flatten_cons, List.map_cons]
      rw [← ih]
      rfl
  exact fun n _ => h n

/-- A line with blanks, a token and a comment, and one with an empty token. -/
theorem test_witness_SignificantTokensOfASource :
    (∀ c ∈ [' ', '\t'] ++ [' '], c = ' ' ∨ c = '\t') ∧ '#' ∉ ['1', '0'] ∧ '\n' ∉ ['1', '0'] ∧
    '\n' ∉ ['x', '#'] ∧
    (∀ c, ['1', '0'].head? = some c ∨ ['1', '0'].getLast? = some c → isBlank c = false) ∧
    (∀ c, ([] : List Char).head? = some c ∨ ([] : List Char).getLast? = some c →
      isBlank c = false) := by
  refine ⟨by simp, by decide, by decide, by decide, ?_, by simp⟩
  intro c h
  cases h with
  | inl h => rw [← Option.some.inj h]; decide
  | inr h => rw [← Option.some.inj h]; decide

theorem test_witness_LoaderReadsBackWrittenImages : '\n' ∉ ("x # 1".toList) ∧
    (List.replicate 256 (255 : Byte)).length ≤ 256 :=
  ⟨by decide, by rw [List.length_replicate]⟩

end Sys2Proof.Tests
end

/-! ### The two outcomes of a step (spec/00_scope.md R9) -/

namespace Sys2Proof.Machine

/-- An instruction writes the fault register only by the fault entry of an operand above 7. -/
theorem fault_eq_or_regFault_of_effect {s t : State} {i : Instr} (h : Effect s i t) :
    t.fault = s.fault ∨ ∃ a ∈ accessedOperands i s, 7 < a.toNat ∧ t = regFault a s := by
  cases h with
  | regFault ha h => exact .inr ⟨_, ha, h, rfl⟩
  | _ => exact .inl rfl

/-- A fetch that fails raises a fault, never the cause NONE. -/
theorem FetchCase.cause_ne_none {s : State} {r : Raised} (h : FetchCase s (.error r)) :
    r.cause ≠ .none := by
  cases h <;> exact FaultCause.noConfusion

theorem exists_step_of_running {s : State} (h : s.rs = .running) : ∃ t, step s = .next t := by
  cases hf : fetchInstr s with
  | ok i =>
    obtain ⟨t, ht, -⟩ := exec_effect i s
    exact ⟨t, (step_of_fetch_ok h hf).trans ht⟩
  | error r => exact ⟨_, step_of_fetch_error h hf⟩

/-- A step either runs the instruction at PC and leaves the fault register alone, or is the entry of
a fault: of the fetch, or of a register operand the instruction accesses. -/
theorem step_completes_or_faults {s t : State} (h : step s = .next t) :
    (t.fault = s.fault ∧ ∃ i, CellsAt s (encode i) ∧ exec i s = .next t) ∨
      ∃ r : Raised, r.cause ≠ .none ∧ t = raiseFault r s := by
  obtain ⟨-, ⟨i, hcells, hexec, heffect⟩ | ⟨r, hfetch, ht⟩⟩ := step_cases h
  · obtain hfault | ⟨a, -, -, ht⟩ := fault_eq_or_regFault_of_effect heffect
    · exact .inl ⟨hfault, i, hcells, hexec⟩
    · exact .inr ⟨_, FaultCause.noConfusion, ht⟩
  · exact .inr ⟨r, hfetch.cause_ne_none, ht⟩

/-- Settles O19: `step_completes_or_faults` gives one of the two outcomes, and the cause in the fault
register of the next state tells them apart. -/
theorem stepHasExactlyOneOfTwoOutcomes : Obligations.StepHasExactlyOneOfTwoOutcomes := by
  refine ⟨fun s hrun hclear => ?_, fun s => step_of_halted⟩
  obtain ⟨t, ht⟩ := exists_step_of_running hrun
  refine ⟨t, ht, ?_⟩
  obtain ⟨hfault, hexec⟩ | ⟨r, hr, rfl⟩ := step_completes_or_faults ht
  · have hnone : t.fault.cause = .none := by rw [hfault, hclear]
    refine .inl ⟨⟨hnone, hexec⟩, ?_⟩
    rintro ⟨r, hr, rfl⟩
    exact hr hnone
  · exact .inr ⟨⟨r, hr, rfl⟩, fun ⟨hnone, _⟩ => hr hnone⟩

end Sys2Proof.Machine

/-! ### Register writes that meet, and the operands an instruction accesses -/

namespace Sys2Proof.Machine

/-- Two writes of the same register: the later one counts. -/
@[simp] theorem State.setReg_setReg_same (s : State) (i : Fin 8) (v w : Byte) :
    (s.setReg i v).setReg i w = s.setReg i w := by
  simp [State.setReg]

/-- Writes of two registers commute. -/
theorem State.setReg_comm (s : State) {i j : Fin 8} (h : i ≠ j) (v w : Byte) :
    (s.setReg i v).setReg j w = (s.setReg j w).setReg i v := by
  have hval : i.val ≠ j.val := Fin.val_ne_of_ne h
  simp [State.setReg, Vector.set_comm _ _ hval]

/-- An operand byte of at most 7 names a register. -/
theorem exists_reg_of_le {a : Byte} (h : a.toNat ≤ 7) : ∃ i : Fin 8, i.val = a.toNat :=
  (operand_cases a).resolve_right (Nat.not_lt.2 h)

theorem accessedOperands_jeq (a : Byte) (s : State) :
    accessedOperands (.jeq a) s = if equalSet s.fl then [a] else [] := rfl

theorem accessedOperands_jne (a : Byte) (s : State) :
    accessedOperands (.jne a) s = if flagsClear s.fl then [a] else [] := by
  simp [accessedOperands, flagsClear]

@[simp] theorem accessedOperands_setReg (i : Instr) (s : State) (j : Fin 8) (v : Byte) :
    accessedOperands i (s.setReg j v) = accessedOperands i s := by
  cases i <;> rfl

/-- LDI's destination is the one operand an instruction accesses without reading it (R22). -/
theorem mem_readOperands_or_ldi {i : Instr} {s : State} {a : Byte} (h : a ∈ accessedOperands i s) :
    a ∈ readOperands i s ∨ ∃ imm, i = .ldi a imm := by
  cases i with
  | ldi b imm =>
    obtain rfl : a = b := List.mem_singleton.1 h
    exact .inr ⟨imm, rfl⟩
  | _ => exact .inl h

theorem find_above_singleton {a b : Byte}
    (h : [b].find? (fun a => decide (7 < a.toNat)) = some a) : 7 < b.toNat ∧ b = a := by
  simpa using h

theorem find_above_pair {a b c : Byte}
    (h : [b, c].find? (fun a => decide (7 < a.toNat)) = some a) :
    7 < b.toNat ∧ b = a ∨ b.toNat ≤ 7 ∧ 7 < c.toNat ∧ c = a := by
  simpa using h

/-- The first operand above 7 that an instruction accesses is the one it faults on (R183, R185). -/
theorem exec_of_find_above {i : Instr} {s : State} {a : Byte}
    (h : (accessedOperands i s).find? (fun a => decide (7 < a.toNat)) = some a) :
    exec i s = .next (regFault a s) := by
  cases i with
  | hlt => simp [accessedOperands] at h
  | ldi b imm =>
    obtain ⟨hb, rfl⟩ := find_above_singleton h
    exact exec_ldi_fault hb imm s
  | prn b =>
    obtain ⟨hb, rfl⟩ := find_above_singleton h
    exact exec_prn_fault hb s
  | mul b c =>
    obtain ⟨hb, rfl⟩ | ⟨hb, hc, rfl⟩ := find_above_pair h
    · exact exec_mul_fault_left hb c s
    · obtain ⟨i, hi⟩ := exists_reg_of_le hb
      exact exec_mul_fault_right hi hc s
  | cmp b c =>
    obtain ⟨hb, rfl⟩ | ⟨hb, hc, rfl⟩ := find_above_pair h
    · exact exec_cmp_fault_left hb c s
    · obtain ⟨i, hi⟩ := exists_reg_of_le hb
      exact exec_cmp_fault_right hi hc s
  | jmp b =>
    obtain ⟨hb, rfl⟩ := find_above_singleton h
    exact exec_jmp_fault hb s
  | jeq b =>
    rw [accessedOperands_jeq] at h
    cases c : equalSet s.fl with
    | false => simp [c] at h
    | true =>
      obtain ⟨hb, rfl⟩ := find_above_singleton (by simpa only [c, if_true] using h)
      exact exec_jeq_fault c hb
  | jne b =>
    rw [accessedOperands_jne] at h
    cases c : flagsClear s.fl with
    | false => simp [c] at h
    | true =>
      obtain ⟨hb, rfl⟩ := find_above_singleton (by simpa only [c, if_true] using h)
      exact exec_jne_fault c hb

/-- The two ways an instruction can end: the fault on its first accessed operand above 7, or a
completion with every operand it accesses in range. -/
theorem fault_or_complete_of_exec {i : Instr} {s t : State} (h : exec i s = .next t) :
    (∃ a, (accessedOperands i s).find? (fun a => decide (7 < a.toNat)) = some a ∧ t = regFault a s) ∨
      (∀ a ∈ accessedOperands i s, ¬ 7 < a.toNat) ∧ Effect s i t := by
  cases hfind : (accessedOperands i s).find? (fun a => decide (7 < a.toNat)) with
  | some a =>
    rw [exec_of_find_above hfind] at h
    cases h
    exact .inl ⟨a, rfl, rfl⟩
  | none => exact .inr ⟨by simpa using List.find?_eq_none.1 hfind, effect_of_exec h⟩

/-! ### The registers an instruction reads and writes (spec/10_state.md R22) -/

/-- The converse of R22's table: a register that changed is operand_a of an LDI or a MUL. -/
theorem ldi_or_mul_of_reg_ne {i : Instr} {s t : State} {j : Fin 8} (h : Effect s i t)
    (hne : t.reg j ≠ s.reg j) :
    ∃ a b : Byte, j.val = a.toNat ∧ (i = .ldi a b ∨ i = .mul a b) := by
  cases h with
  | @ldi a r hr imm =>
    obtain rfl : j = r := by_contra fun hjr => hne (State.reg_setReg_other s r j imm hjr)
    exact ⟨a, imm, hr, .inl rfl⟩
  | @mul a b r r' hr hr' =>
    obtain rfl : j = r := by_contra fun hjr => hne (State.reg_setReg_other s r j _ hjr)
    exact ⟨a, b, hr, .inr rfl⟩
  | _ => exact absurd rfl hne

/-- A register an instruction does not access passes through it: writing the register before the
instruction is writing it after. -/
theorem exec_setReg_of_not_accessed {i : Instr} {s t : State} {j : Fin 8} (v : Byte)
    (h : exec i s = .next t) (hj : ∀ a ∈ accessedOperands i s, j.val ≠ a.toNat) :
    exec i (s.setReg j v) = .next (t.setReg j v) := by
  obtain ⟨a, hfind, rfl⟩ | ⟨hle, heffect⟩ := fault_or_complete_of_exec h
  · rw [exec_of_find_above (by rwa [accessedOperands_setReg])]
    rfl
  have other {a : Byte} {r : Fin 8} (hr : r.val = a.toNat) (ha : a ∈ accessedOperands i s) :
      r ≠ j := fun e => hj a ha (e ▸ hr)
  cases heffect with
  | hlt => rfl
  | ldi r hr imm =>
    have hrj := other hr (by simp [accessedOperands])
    rw [exec_ldi hr, State.setReg_comm s hrj.symm]
    rfl
  | prn r hr =>
    have hrj := other hr (by simp [accessedOperands])
    rw [exec_prn hr, State.reg_setReg_other s j r v hrj]
    rfl
  | mul r r' hr hr' =>
    have hrj := other hr (by simp [accessedOperands])
    have hrj' := other hr' (by simp [accessedOperands])
    rw [exec_mul hr hr', State.reg_setReg_other s j r v hrj, State.reg_setReg_other s j r' v hrj',
      State.setReg_comm s hrj.symm]
    rfl
  | cmp r r' hr hr' =>
    have hrj := other hr (by simp [accessedOperands])
    have hrj' := other hr' (by simp [accessedOperands])
    rw [exec_cmp hr hr', State.reg_setReg_other s j r v hrj, State.reg_setReg_other s j r' v hrj']
    rfl
  | jmp r hr =>
    have hrj := other hr (by simp [accessedOperands])
    rw [exec_jmp hr, State.reg_setReg_other s j r v hrj]
    rfl
  | jeqTaken r hr c =>
    have hrj := other hr (accessed_jeq c _)
    rw [exec_jeq_taken (s := s.setReg j v) c hr, State.reg_setReg_other s j r v hrj]
    rfl
  | jeqNot c => exact exec_jeq_not (s := s.setReg j v) c _
  | jneTaken r hr c =>
    have hrj := other hr (accessed_jne c _)
    rw [exec_jne_taken (s := s.setReg j v) c hr, State.reg_setReg_other s j r v hrj]
    rfl
  | jneNot c => exact exec_jne_not (s := s.setReg j v) c _
  | regFault ha hgt => exact absurd hgt (hle _ ha)

/-- LDI does not read its destination. -/
theorem exec_ldi_setReg_dest {a : Byte} {j : Fin 8} (h : j.val = a.toNat) (imm v : Byte) (s : State) :
    exec (.ldi a imm) (s.setReg j v) = exec (.ldi a imm) s := by
  rw [exec_ldi h, exec_ldi h, State.setReg_setReg_same]

/-- ALU ADD writes its first register only, with a value that its two registers fix. -/
theorem aluApply_add_access {a b : Byte} {i j : Fin 8} (hi : i.val = a.toNat) (hj : j.val = b.toNat)
    {s s' : State} (ha : s'.reg i = s.reg i) (hb : s'.reg j = s.reg j) :
    ∃ t t', aluApply .add a b s = .ok t ∧ aluApply .add a b s' = .ok t' ∧ t'.reg i = t.reg i ∧
      ∀ k : Fin 8, k ≠ i → t.reg k = s.reg k :=
  ⟨_, _, aluApply_of_eq hi hj .add s, aluApply_of_eq hi hj .add s',
    by simp only [aluEffect, State.reg_setReg_same, ha, hb],
    fun k hk => State.reg_setReg_other s i k _ hk⟩

/-- Settles O37: the write bound is `ldi_or_mul_of_reg_ne`; for the reads, the register is either LDI's
destination, whose old value LDI never sees, or no operand the instruction accesses. -/
theorem registerAccessOfEveryInstruction : Obligations.RegisterAccessOfEveryInstruction := by
  refine ⟨fun i s t j h hne => ldi_or_mul_of_reg_ne (effect_of_exec h) hne, ?reads, ?faults,
    fun a b i j s s' hi hj ha hb => aluApply_add_access hi hj ha hb⟩
  case reads =>
    intro i s t j v h hread
    by_cases hdest : ∃ a imm, i = .ldi a imm ∧ j.val = a.toNat
    · obtain ⟨a, imm, rfl, hj⟩ := hdest
      exact ⟨t, (exec_ldi_setReg_dest hj imm v s).trans h, rfl, fun _ _ => rfl, fun _ => rfl,
        fun hother => absurd hj (hother a imm rfl)⟩
    · have haccess : ∀ a ∈ accessedOperands i s, j.val ≠ a.toNat := fun a ha hj =>
        (mem_readOperands_or_ldi ha).elim (fun hr => hread a hr hj)
          (fun ⟨imm, hi⟩ => hdest ⟨a, imm, hi, hj⟩)
      exact ⟨t.setReg j v, exec_setReg_of_not_accessed v h haccess, rfl,
        fun k hk => State.reg_setReg_other t j k v hk, fun hd => absurd hd hdest,
        fun _ => State.reg_setReg_same t j v⟩
  case faults =>
    intro i s hbad
    obtain ⟨a, hfind⟩ :
        ∃ a, (accessedOperands i s).find? (fun a => decide (7 < a.toNat)) = some a :=
      Option.isSome_iff_exists.1 (List.find?_isSome.2 (by simpa using hbad))
    exact ⟨_, exec_of_find_above hfind, rfl, fun _ => rfl⟩

/-! ### The readers and the writer of FL (spec/10_state.md R31) -/

/-- CMP is the only instruction that writes FL. -/
theorem fl_eq_of_effect {i : Instr} {s t : State} (h : Effect s i t) (hcmp : ∀ a b, i ≠ .cmp a b) :
    t.fl = s.fl := by
  cases h with
  | cmp => exact absurd rfl (hcmp _ _)
  | _ => rfl

/-- An FL on which JEQ's and JNE's tests answer the same has the same operands accessed. -/
theorem accessedOperands_setFl {i : Instr} {s : State} {fl : Byte}
    (hjeq : ∀ a, i = .jeq a → equalSet fl = equalSet s.fl)
    (hjne : ∀ a, i = .jne a → flagsClear fl = flagsClear s.fl) :
    accessedOperands i (s.setFl fl) = accessedOperands i s := by
  cases i with
  | jeq a => rw [accessedOperands_jeq, accessedOperands_jeq, State.setFl_fl, hjeq a rfl]
  | jne a => rw [accessedOperands_jne, accessedOperands_jne, State.setFl_fl, hjne a rfl]
  | _ => rfl

/-- FL passes through every instruction but CMP, as long as JEQ's and JNE's tests answer the same:
writing it before the instruction is writing it after. -/
theorem exec_setFl {i : Instr} {s t : State} {fl : Byte} (h : exec i s = .next t)
    (hcmp : ∀ a b, i ≠ .cmp a b)
    (hjeq : ∀ a, i = .jeq a → equalSet fl = equalSet s.fl)
    (hjne : ∀ a, i = .jne a → flagsClear fl = flagsClear s.fl) :
    exec i (s.setFl fl) = .next (t.setFl fl) := by
  obtain ⟨a, hfind, rfl⟩ | ⟨hle, heffect⟩ := fault_or_complete_of_exec h
  · rw [exec_of_find_above (by rwa [accessedOperands_setFl hjeq hjne])]
    rfl
  cases heffect with
  | hlt => rfl
  | ldi r hr imm => exact exec_ldi hr imm _
  | prn r hr => exact exec_prn hr _
  | mul r r' hr hr' => exact exec_mul hr hr' _
  | cmp => exact absurd rfl (hcmp _ _)
  | jmp r hr => exact exec_jmp hr _
  | jeqTaken r hr c => exact exec_jeq_taken (s := s.setFl fl) ((hjeq _ rfl).trans c) hr
  | jeqNot c => exact exec_jeq_not (s := s.setFl fl) ((hjeq _ rfl).trans c) _
  | jneTaken r hr c => exact exec_jne_taken (s := s.setFl fl) ((hjne _ rfl).trans c) hr
  | jneNot c => exact exec_jne_not (s := s.setFl fl) ((hjne _ rfl).trans c) _
  | regFault ha hgt => exact absurd hgt (hle _ ha)

/-- CMP overwrites all of FL: with operands in range its result does not depend on the old one. -/
theorem exec_cmp_setFl {a b : Byte} (ha : a.toNat ≤ 7) (hb : b.toNat ≤ 7) (s : State) (fl : Byte) :
    exec (.cmp a b) (s.setFl fl) = exec (.cmp a b) s := by
  obtain ⟨i, hi⟩ := exists_reg_of_le ha
  obtain ⟨j, hj⟩ := exists_reg_of_le hb
  rw [exec_cmp hi hj, exec_cmp hi hj]
  rfl

/-- What an ALU operation answers when it answers at all: both operands name registers. -/
theorem aluEffect_of_aluApply {op : AluOp} {a b : Byte} {s t : State} (h : aluApply op a b s = .ok t) :
    ∃ i j : Fin 8, i.val = a.toNat ∧ j.val = b.toNat ∧ t = aluEffect op i j s := by
  obtain ⟨i, hi⟩ | ha := operand_cases a
  · obtain ⟨j, hj⟩ | hb := operand_cases b
    · rw [aluApply_of_eq hi hj] at h
      cases h
      exact ⟨i, j, hi, hj, rfl⟩
    · rw [aluApply_of_gt_right hi hb] at h
      cases h
  · rw [aluApply_of_gt_left ha] at h
    cases h

/-- FL passes through every operation of the ALU but CMP. -/
theorem aluApply_setFl {op : AluOp} {a b : Byte} {s t : State} (fl : Byte) (hop : op ≠ .cmp)
    (h : aluApply op a b s = .ok t) :
    t.fl = s.fl ∧ aluApply op a b (s.setFl fl) = .ok (t.setFl fl) := by
  obtain ⟨i, j, hi, hj, rfl⟩ := aluEffect_of_aluApply h
  rw [aluApply_of_eq hi hj]
  cases op with
  | cmp => exact absurd rfl hop
  | _ => exact ⟨rfl, rfl⟩

/-- Settles O43: `{ s with fl := fl }` is `s.setFl fl`, and of the two tests JEQ's reads bit 0 and JNE's
whether the whole byte is zero. -/
theorem flagsAreWrittenByCmpAndReadByJumpsOnly :
    Obligations.FlagsAreWrittenByCmpAndReadByJumpsOnly :=
  ⟨fun _ _ _ hcmp h => fl_eq_of_effect (effect_of_exec h) hcmp,
    fun _ _ s fl ha hb => exec_cmp_setFl ha hb s fl,
    fun _ _ _ _ hcmp hbit hzero h =>
      exec_setFl h hcmp hbit fun a hi => decide_eq_decide.2 (hzero a hi),
    fun _ _ _ _ _ fl hop h => aluApply_setFl fl hop h⟩

/-! ### Reset (spec/10_state.md R28) -/

/-- Settles O12: both are fields of the reset state. -/
theorem resetStartsRunningAtZero : Obligations.ResetStartsRunningAtZero := ⟨rfl, rfl⟩

end Sys2Proof.Machine

/-! ### MemRead, MemWrite and the memory across a step (spec/20_memory.md R51, R52) -/

namespace Sys2Proof.Machine

theorem memWrite_of_lt {a : Nat} (h : a < 256) (v : Byte) (m : Memory) :
    memWrite a v m = .ok (m.write a v) := if_pos h

theorem memWrite_of_ge {a : Nat} (h : 256 ≤ a) (v : Byte) (m : Memory) :
    memWrite a v m = .error { cause := .addressFault, info := a } := if_neg (Nat.not_lt.2 h)

/-- No instruction writes memory, whether it completes or faults (R52). -/
theorem mem_eq_of_effect {i : Instr} {s t : State} (h : Effect s i t) : t.mem = s.mem := by
  cases h <;> rfl

/-- No step writes memory: neither the instruction at PC nor the entry of a fault of the fetch. -/
theorem mem_eq_of_step {s t : State} (h : step s = .next t) : t.mem = s.mem := by
  obtain ⟨-, ⟨i, -, -, heffect⟩ | ⟨r, -, rfl⟩⟩ := step_cases h
  · exact mem_eq_of_effect heffect
  · exact raiseFault_mem r s

/-- Settles O9: below 256 `memWrite` is `Memory.write`, whose every cell `Memory.read_write` gives; the
frame of a step is `mem_eq_of_step`. -/
theorem memWriteContract : Obligations.MemWriteContract := by
  refine ⟨fun a v m hm => ⟨fun ha => ?_, fun ha => memWrite_of_ge ha v m⟩, fun _ _ => mem_eq_of_step⟩
  refine ⟨m.write a v, memWrite_of_lt ha v m, ?written, fun b hb => ?other⟩
  case written => rw [Memory.read_write hm, if_pos rfl]
  case other => rw [Memory.read_write hm, if_neg hb]

/-- Settles O8: the two sides of the address check of `memRead`. -/
theorem memReadContract : Obligations.MemReadContract :=
  fun _ m => ⟨fun h => memRead_of_lt h m, fun h => memRead_of_ge h m⟩

end Sys2Proof.Machine

/-! ### The bytes outside the instruction (spec/30_encoding.md R87) -/

namespace Sys2Proof.Machine

/-- The operands an instruction accesses depend on FL alone, never on memory. -/
theorem accessedOperands_withMem (i : Instr) (s : State) (m : Memory) :
    accessedOperands i { s with mem := m } = accessedOperands i s := by
  cases i <;> rfl

/-- Memory passes through every instruction, which neither reads nor writes it once it is fetched:
replacing it before the instruction is replacing it after. -/
theorem exec_withMem {i : Instr} {s t : State} (m : Memory) (h : exec i s = .next t) :
    exec i { s with mem := m } = .next { t with mem := m } := by
  obtain ⟨a, hfind, rfl⟩ | ⟨hle, heffect⟩ := fault_or_complete_of_exec h
  · exact exec_of_find_above (by rwa [accessedOperands_withMem])
  cases heffect with
  | hlt => exact exec_hlt _
  | ldi r hr imm => exact exec_ldi hr imm _
  | prn r hr => exact exec_prn hr _
  | mul r r' hr hr' => exact exec_mul hr hr' _
  | cmp r r' hr hr' => exact exec_cmp hr hr' _
  | jmp r hr => exact exec_jmp hr _
  | jeqTaken r hr c => exact exec_jeq_taken (s := { s with mem := m }) c hr
  | jeqNot c => exact exec_jeq_not (s := { s with mem := m }) c _
  | jneTaken r hr c => exact exec_jne_taken (s := { s with mem := m }) c hr
  | jneNot c => exact exec_jne_not (s := { s with mem := m }) c _
  | regFault ha hgt => exact absurd hgt (hle _ ha)

/-- A RUNNING step executes the instruction whose bytes stand at PC (R114). -/
theorem step_of_cells {s : State} {i : Instr} (hr : s.rs = .running) (h : CellsAt s (encode i)) :
    step s = exec i s :=
  step_of_fetch_ok hr (fetchInstr_of_cells h)

/-- Settles O26: both steps fetch the same instruction, and memory passes through it
(`exec_withMem`). -/
theorem bytesAfterTheInstructionAreIgnored : Obligations.BytesAfterTheInstructionAreIgnored := by
  intro s m i hr hcells hcells'
  obtain ⟨t, ht, -⟩ := exec_effect i s
  exact ⟨t, (step_of_cells hr hcells).trans ht,
    (step_of_cells (s := { s with mem := m }) hr hcells').trans (exec_withMem m ht)⟩

end Sys2Proof.Machine

/-! ### The contract of the ALU (spec/41_alu.md R130) -/

namespace Sys2Proof.Machine

/-- Once the first index passes its check, a second operand above 7 is the fault. -/
theorem aluApply_of_le_of_gt {a b : Byte} (ha : a.toNat ≤ 7) (hb : 7 < b.toNat) (op : AluOp)
    (s : State) : aluApply op a b s = .error { cause := .registerIndexFault, info := b.toNat } := by
  obtain ⟨i, hi⟩ | ha' := operand_cases a
  · exact aluApply_of_gt_right hi hb op s
  · exact absurd ha' (Nat.not_lt.2 ha)

/-- CMP writes FL and nothing else. -/
theorem aluEffect_cmp_writes_fl (i j : Fin 8) (s : State) :
    aluEffect .cmp i j s = { s with fl := (aluEffect .cmp i j s).fl } := rfl

/-- ADD and MUL write the registers and nothing else. -/
theorem aluEffect_writes_regs {op : AluOp} (hop : op ≠ .cmp) (i j : Fin 8) (s : State) :
    aluEffect op i j s = { s with regs := (aluEffect op i j s).regs } := by
  cases op with
  | cmp => exact absurd rfl hop
  | _ => rfl

/-- No operation of the ALU writes a register but its first. -/
theorem aluEffect_reg_other (op : AluOp) {i k : Fin 8} (hk : k ≠ i) (j : Fin 8) (s : State) :
    (aluEffect op i j s).reg k = s.reg k := by
  cases op with
  | cmp => exact State.reg_setFl s _ k
  | _ => exact State.reg_setReg_other s i k _ hk

/-- The value CMP writes is a function of the two register values. -/
theorem aluEffect_cmp_fl_congr {i j : Fin 8} {s s' : State} (hi : s'.reg i = s.reg i)
    (hj : s'.reg j = s.reg j) : (aluEffect .cmp i j s').fl = (aluEffect .cmp i j s).fl := by
  simp only [aluEffect, State.setFl_fl, hi, hj]

/-- What an operation leaves in its first register is a function of the two register values. -/
theorem aluEffect_reg_congr (op : AluOp) {i j : Fin 8} {s s' : State} (hi : s'.reg i = s.reg i)
    (hj : s'.reg j = s.reg j) : (aluEffect op i j s').reg i = (aluEffect op i j s).reg i := by
  cases op with
  | cmp => exact hi
  | _ => simp only [aluEffect, State.reg_setReg_same, hi, hj]

/-- Settles O47: a byte above 7 fails its check in order; past both checks the operation is
`aluEffect`, whose frame and whose dependence on the two register values the lemmas above give. -/
theorem aluContract : Obligations.AluContract := by
  refine ⟨fun op a b s ha => aluApply_of_gt_left ha op b s,
    fun op a b s ha hb => aluApply_of_le_of_gt ha hb op s, fun op a b i j hi hj s => ?_⟩
  refine ⟨aluEffect op i j s, aluApply_of_eq hi hj op s, ?cmpFrame, ?regFrame, ?congruence⟩
  case cmpFrame =>
    rintro rfl
    exact aluEffect_cmp_writes_fl i j s
  case regFrame =>
    exact fun hop => ⟨aluEffect_writes_regs hop i j s, fun k hk => aluEffect_reg_other op hk j s⟩
  case congruence =>
    intro s' t' hri hrj ht'
    have heq : aluEffect op i j s' = t' := Except.ok.inj ((aluApply_of_eq hi hj op s').symm.trans ht')
    subst heq
    refine ⟨?_, fun _ => aluEffect_reg_congr op hri hrj⟩
    rintro rfl
    exact aluEffect_cmp_fl_congr hri hrj

end Sys2Proof.Machine

/-! ### The decoder inverts the encoder (spec/30_encoding.md R80 to R86) -/

namespace Sys2Proof

/-- An instruction's encoding decodes to it, and what follows is the rest. -/
theorem decode_encode_append (i : Instr) (rest : List Byte) :
    decode (encode i ++ rest) = .ok (i, rest) := by
  cases i <;> rfl

/-- The first byte of an encoding fixes its length. -/
theorem opcodeWidth_head_encode (i : Instr) :
    (encode i).head?.bind opcodeWidth = some (encode i).length := by
  cases i <;> rfl

/-- The opcode byte of bytes that begin with an encoding has the width of that encoding. -/
theorem opcodeWidth_of_eq_encode_append {op : Byte} {i : Instr} {rest rest' : List Byte}
    (h : op :: rest = encode i ++ rest') : opcodeWidth op = some (encode i).length := by
  have hhead := opcodeWidth_head_encode i
  cases henc : encode i with
  | nil => rw [henc] at hhead; cases hhead
  | cons v vs =>
    rw [henc] at h hhead
    obtain ⟨rfl, -⟩ := List.cons.inj h
    exact hhead

theorem opcodeWidth_eq_none {op : Byte} : opcodeWidth op = none ↔ formatOf op = none :=
  Option.map_eq_none_iff

/-- Every answer of the decoder to a list that has an opcode byte. -/
inductive DecodeCase (op : Byte) (rest : List Byte) :
    Except DecodeError (Instr × List Byte) → Prop where
  | unknown (h : opcodeWidth op = none) : DecodeCase op rest (.error (.unknownOpcode op))
  | missing {w : Nat} (h : opcodeWidth op = some w) (short : rest.length + 1 < w) :
      DecodeCase op rest (.error (.missingOperand (rest.length + 1)))
  | decoded (i : Instr) (rest' : List Byte) (h : op :: rest = encode i ++ rest') :
      DecodeCase op rest (.ok (i, rest'))

theorem decode_cases (op : Byte) (rest : List Byte) : DecodeCase op rest (decode (op :: rest)) := by
  cases h : formatOf op with
  | none =>
    have hd : decode (op :: rest) = .error (.unknownOpcode op) := by simp [decode, h]
    exact hd ▸ .unknown (opcodeWidth_eq_none.2 h)
  | some f =>
    have hw : opcodeWidth op = some f.width := by simp [opcodeWidth, h]
    cases f with
    | f1 i =>
      have hd : decode (op :: rest) = .ok (i, rest) := by simp [decode, h]
      obtain ⟨rfl, rfl⟩ := formatOf_f1 h
      exact hd ▸ .decoded _ _ rfl
    | f2 make =>
      match rest with
      | [] =>
        have hd : decode [op] = .error (.missingOperand 1) := by simp [decode, h]
        exact hd ▸ .missing hw (by simp [Format.width])
      | a :: rest =>
        have hd : decode (op :: a :: rest) = .ok (make a, rest) := by simp [decode, h]
        exact hd ▸ .decoded _ _ (by rw [formatOf_f2 h]; rfl)
    | f3 make =>
      match rest with
      | [] =>
        have hd : decode [op] = .error (.missingOperand 1) := by simp [decode, h]
        exact hd ▸ .missing hw (by simp [Format.width])
      | [a] =>
        have hd : decode [op, a] = .error (.missingOperand 2) := by simp [decode, h]
        exact hd ▸ .missing hw (by simp [Format.width])
      | a :: b :: rest =>
        have hd : decode (op :: a :: b :: rest) = .ok (make a b, rest) := by simp [decode, h]
        exact hd ▸ .decoded _ _ (by rw [formatOf_f3 h]; rfl)

/-- Settles O1: `decode_cases` gives one direction, `decode_encode_append` the other. -/
theorem decodeExactlyInvertsEncode : Obligations.DecodeExactlyInvertsEncode := by
  refine fun bs i rest => ⟨fun h => ?_, fun h => h ▸ decode_encode_append i rest⟩
  cases bs with
  | nil => cases h
  | cons op bs =>
    have hcase := decode_cases op bs
    rw [h] at hcase
    cases hcase with
    | decoded _ _ hbytes => exact hbytes

/-- Settles O2: each word computes. -/
theorem specWordsDecodeToTheirInstructions : Obligations.SpecWordsDecodeToTheirInstructions := by
  unfold Obligations.SpecWordsDecodeToTheirInstructions
  decide

/-- Every byte that has a width is the opcode byte of some instruction of that width. -/
theorem exists_encode_of_opcodeWidth {op : Byte} {w : Nat} (h : opcodeWidth op = some w) :
    ∃ i, (encode i).head? = some op ∧ (encode i).length = w := by
  obtain ⟨f, hf, rfl⟩ := Option.map_eq_some_iff.1 h
  cases f with
  | f1 i =>
    obtain ⟨rfl, rfl⟩ := formatOf_f1 hf
    exact ⟨.hlt, rfl, rfl⟩
  | f2 make => exact ⟨make 0#8, by rw [formatOf_f2 hf]; exact ⟨rfl, rfl⟩⟩
  | f3 make => exact ⟨make 0#8 0#8, by rw [formatOf_f3 hf]; exact ⟨rfl, rfl⟩⟩

/-- Every width with its opcode bytes (R81, R82). -/
theorem opcodeWidth_cases {op : Byte} {w : Nat} (h : opcodeWidth op = some w) :
    w = 1 ∧ op = 0x01#8 ∨ w = 2 ∧ (op = 0x47#8 ∨ op = 0x54#8 ∨ op = 0x55#8 ∨ op = 0x56#8) ∨
      w = 3 ∧ (op = 0x82#8 ∨ op = 0xA2#8 ∨ op = 0xA7#8) := by
  obtain ⟨i, hop, rfl⟩ := exists_encode_of_opcodeWidth h
  cases i <;> (obtain rfl := Option.some.inj hop; simp [encode])

theorem opcodeWidth_eq_one_iff (op : Byte) : opcodeWidth op = some 1 ↔ op = 0x01#8 :=
  ⟨fun h => by simpa using opcodeWidth_cases h, by rintro rfl; rfl⟩

theorem opcodeWidth_eq_two_iff (op : Byte) : opcodeWidth op = some 2 ↔
    op = 0x47#8 ∨ op = 0x54#8 ∨ op = 0x55#8 ∨ op = 0x56#8 :=
  ⟨fun h => by simpa using opcodeWidth_cases h, by rintro (rfl | rfl | rfl | rfl) <;> rfl⟩

theorem opcodeWidth_eq_three_iff (op : Byte) : opcodeWidth op = some 3 ↔
    op = 0x82#8 ∨ op = 0xA2#8 ∨ op = 0xA7#8 :=
  ⟨fun h => by simpa using opcodeWidth_cases h, by rintro (rfl | rfl | rfl) <;> rfl⟩

/-- The opcode bytes without a width are those outside the table (R83, R85). -/
theorem opcodeWidth_eq_none_iff (op : Byte) : opcodeWidth op = none ↔
    op ∉ [0x01#8, 0x82#8, 0x47#8, 0xA2#8, 0xA7#8, 0x55#8, 0x56#8, 0x54#8] := by
  constructor
  · intro h hmem
    have hsome : ∀ op ∈ [0x01#8, 0x82#8, 0x47#8, 0xA2#8, 0xA7#8, 0x55#8, 0x56#8, 0x54#8],
        opcodeWidth op ≠ none := by decide
    exact hsome op hmem h
  · intro hmem
    by_contra hne
    obtain ⟨w, hw⟩ := Option.ne_none_iff_exists'.1 hne
    obtain ⟨-, rfl⟩ | ⟨-, rfl | rfl | rfl | rfl⟩ | ⟨-, rfl | rfl | rfl⟩ := opcodeWidth_cases hw <;>
      simp at hmem

/-- Settles O4: of the decoder's answers (`decode_cases`) only the one to an opcode byte without a width
is `unknownOpcode`. -/
theorem unknownOpcodesAreRefused : Obligations.UnknownOpcodesAreRefused := by
  intro bs op
  simp only [← opcodeWidth_eq_none_iff]
  constructor
  · intro h
    cases bs with
    | nil => cases h
    | cons op' rest =>
      have hcase := decode_cases op' rest
      rw [h] at hcase
      cases hcase with
      | unknown hnone => exact ⟨rest, rfl, hnone⟩
  · rintro ⟨rest, rfl, hnone⟩
    have hcase := decode_cases op rest
    generalize decode (op :: rest) = answer at hcase ⊢
    cases hcase with
    | unknown => rfl
    | missing h => rw [hnone] at h; cases h
    | decoded i rest' h =>
      rw [opcodeWidth_of_eq_encode_append h] at hnone
      cases hnone

/-- Settles O5: the width decides which of the decoder's answers (`decode_cases`) is given. -/
theorem truncatedInstructionsAreRefused : Obligations.TruncatedInstructionsAreRefused := by
  intro op rest w hw
  have hcase := decode_cases op rest
  generalize decode (op :: rest) = answer at hcase ⊢
  cases hcase with
  | unknown h => rw [hw] at h; cases h
  | missing h short =>
    rw [hw] at h
    cases h
    exact ⟨fun _ => rfl, fun hlong => absurd short (Nat.not_lt.2 hlong)⟩
  | decoded i rest' h =>
    rw [opcodeWidth_of_eq_encode_append h] at hw
    cases hw
    have hlen : rest.length + 1 = (encode i).length + rest'.length := by
      simpa using congrArg List.length h
    exact ⟨fun hshort => by omega,
      fun _ => ⟨i, by rw [h, List.drop_left], by rw [h, List.take_left]⟩⟩

/-! ### Table words (spec/30_encoding.md R82) -/

/-- The number whose bytes, least significant first, are `bs`. -/
def wordOf (bs : List Byte) : Nat := bs.foldr (fun v acc => v.toNat + 256 * acc) 0

@[simp] theorem wordOf_nil : wordOf [] = 0 := rfl

@[simp] theorem wordOf_cons (v : Byte) (bs : List Byte) :
    wordOf (v :: bs) = v.toNat + 256 * wordOf bs := rfl

theorem wordOf_lt (bs : List Byte) : wordOf bs < 2 ^ (8 * bs.length) := by
  induction bs with
  | nil => simp
  | cons v bs ih =>
    have hv : v.toNat < 256 := v.isLt
    have hpow : 2 ^ (8 * (v :: bs).length) = 256 * 2 ^ (8 * bs.length) := by
      rw [List.length_cons, Nat.mul_add, pow_add]
      ring
    rw [hpow, wordOf_cons]
    omega

/-- Byte `k` of the word is byte `k` of the list, and 0 past its end. -/
theorem byte_of_wordOf (bs : List Byte) (k : Nat) :
    BitVec.ofNat 8 (wordOf bs >>> (8 * k)) = bs[k]?.getD 0#8 := by
  induction bs generalizing k with
  | nil => simp
  | cons v bs ih =>
    have hv : v.toNat < 256 := v.isLt
    cases k with
    | zero =>
      refine BitVec.eq_of_toNat_eq ?_
      simp [Nat.add_mod, Nat.mod_eq_of_lt hv]
    | succ k =>
      have hfirst : wordOf (v :: bs) >>> 8 = wordOf bs := by
        rw [wordOf_cons, Nat.shiftRight_eq_div_pow]
        omega
      rw [show 8 * (k + 1) = 8 + 8 * k by omega, Nat.shiftRight_add, hfirst, ih k]
      rfl

/-- The bytes of the table word of `bs` are `bs`, filled up with zeros. -/
theorem tableWordBytes_wordOf (bs : List Byte) :
    tableWordBytes (8 * bs.length) (wordOf bs) =
      (List.range Config.fetchWindow).map fun k => bs[k]?.getD 0#8 := by
  simp only [tableWordBytes, Nat.mod_eq_of_lt (wordOf_lt bs), byte_of_wordOf]

/-- An encoding filled up with zeros to the fetch window is the encoding and some rest. -/
theorem exists_rest_of_encode_filled (i : Instr) : ∃ rest,
    ((List.range Config.fetchWindow).map fun k => (encode i)[k]?.getD 0#8) = encode i ++ rest := by
  refine ⟨List.replicate (Config.fetchWindow - (encode i).length) 0#8, ?_⟩
  cases i <;> rfl

theorem decodeTableWord_of_bytes {nbits w : Nat} {i : Instr} {rest : List Byte}
    (h : tableWordBytes nbits w = encode i ++ rest) : decodeTableWord nbits w = some i := by
  simp [decodeTableWord, h, decode_encode_append]

/-- Settles O6: the bytes of the table word are the encoding filled up with zeros, and the decoder does
not look past the encoding. -/
theorem tableWordOfAnInstructionDecodes : Obligations.TableWordOfAnInstructionDecodes := by
  intro i
  obtain ⟨rest, hrest⟩ := exists_rest_of_encode_filled i
  exact decodeTableWord_of_bytes ((tableWordBytes_wordOf (encode i)).trans hrest)

end Sys2Proof

/-! ### The width of the opcode byte at PC (spec/30_encoding.md R83, 40_execution_cycle.md R112) -/

namespace Sys2Proof.Machine

/-- The cells of a longer list hold those of any list it begins with. -/
theorem CellsAt.of_append {s : State} {bs rest : List Byte} (h : CellsAt s (bs ++ rest)) :
    CellsAt s bs := by
  obtain ⟨hfit, hcells⟩ := h
  rw [List.length_append] at hfit hcells
  refine ⟨by omega, fun k hk => ?_⟩
  rw [← hcells k (by omega), List.getElem?_append_left hk]

theorem CellsAt.fits {s : State} {bs : List Byte} (h : CellsAt s bs) : s.pc.toNat + bs.length ≤ 256 :=
  h.1

/-- The first of the cells at PC is the one PC points at. -/
theorem CellsAt.head {s : State} {v : Byte} {bs : List Byte} (h : CellsAt s (v :: bs)) :
    s.mem.read s.pc.toNat = v :=
  (cellsAt_one.1 (CellsAt.of_append (rest := bs) h)).2

/-- The opcode byte at PC has the width of the instruction whose bytes stand there. -/
theorem opcodeWidth_of_cells {s : State} {i : Instr} (h : CellsAt s (encode i)) :
    opcodeWidth (s.mem.read s.pc.toNat) = some (encode i).length := by
  have hhead := opcodeWidth_head_encode i
  cases henc : encode i with
  | nil => rw [henc] at hhead; cases hhead
  | cons v vs =>
    rw [henc] at h hhead
    rw [h.head]
    exact hhead

/-- An opcode byte outside the table faults before any operand is fetched (R112, R185). -/
theorem step_of_unknown_opcode {s : State} (hr : s.rs = .running) (hpc : s.pc.toNat ≤ 255)
    (hw : opcodeWidth (s.mem.read s.pc.toNat) = none) :
    step s = .next (raiseFault
      { cause := .unknownInstruction, info := (s.mem.read s.pc.toNat).toNat } s) := by
  refine step_of_fetch_error hr ?_
  simp [fetchInstr, memRead_of_lt (Nat.lt_succ_of_le hpc), opcodeWidth_eq_none.1 hw, bind, Except.bind]

/-- An instruction that runs past address 255 faults at the first byte there (R113, R185). -/
theorem step_of_width_past_end {s : State} {w : Nat} (hr : s.rs = .running) (hpc : s.pc.toNat ≤ 255)
    (hw : opcodeWidth (s.mem.read s.pc.toNat) = some w) (hend : 256 < s.pc.toNat + w) :
    step s = .next (raiseFault { cause := .addressFault, info := 256 } s) := by
  refine step_of_fetch_error hr ?_
  have hcase := fetchInstr_cases s
  generalize fetchInstr s = answer at hcase ⊢
  cases hcase with
  | opcodeAddress h => omega
  | unknown _ u => rw [opcodeWidth_eq_none.2 u] at hw; cases hw
  | operandA => rfl
  | operandB => rfl
  | fetched i h =>
    rw [opcodeWidth_of_cells h] at hw
    cases hw
    have := h.fits
    omega

/-- Settles O3: the widths are read off the encodings (`exists_encode_of_opcodeWidth`), and a step is
`step_of_unknown_opcode`. -/
theorem widthIsFixedByTheOpcodeByte : Obligations.WidthIsFixedByTheOpcodeByte :=
  ⟨fun op => ⟨opcodeWidth_eq_one_iff op, opcodeWidth_eq_two_iff op, opcodeWidth_eq_three_iff op,
      opcodeWidth_eq_none_iff op⟩,
    opcodeWidth_head_encode, fun _ hr hpc hw => step_of_unknown_opcode hr hpc hw⟩

/-- When the cells at PC decode to an instruction, its encoding stands at PC. -/
theorem cellsAt_encode_of_decode {s : State} {bs rest : List Byte} {i : Instr} (h : CellsAt s bs)
    (hd : decode bs = .ok (i, rest)) : CellsAt s (encode i) := by
  rw [(decodeExactlyInvertsEncode bs i rest).1 hd] at h
  exact h.of_append

/-- Settles O18: the decoded bytes begin with the instruction's encoding, which is what is fetched. -/
theorem stepRunsTheDecodedInstruction : Obligations.StepRunsTheDecodedInstruction :=
  fun _ _ _ _ hr hcells hd => step_of_cells hr (cellsAt_encode_of_decode hcells hd)

end Sys2Proof.Machine

/-! ### Every step keeps the invariant (spec/10_state.md R27, R30, R34) -/

namespace Sys2Proof.Machine

/-- A RUNNING state that meets the invariant has recorded no fault. -/
theorem Inv.fault_clear {s : State} (h : Inv s) (hr : s.rs = .running) : s.fault = FaultReg.clear := by
  obtain hclear | ⟨hhalted, -⟩ := h.fault
  · exact hclear
  · rw [hr] at hhalted
    cases hhalted

/-- PC moved on by at most 3 inside the address space does not wrap (R24, R115). -/
theorem toNat_pc_add {pc : PcWord} {w : Nat} (h : pc.toNat + w ≤ 256) :
    (pc + BitVec.ofNat 9 w).toNat = pc.toNat + w := by
  rw [BitVec.toNat_add, BitVec.toNat_ofNat]
  omega

/-- The low 9 bits of a value below 512 are the value. -/
theorem toNat_info {n : Nat} (h : n < 512) : (BitVec.ofNat 9 n).toNat = n :=
  BitVec.toNat_ofNat .. ▸ Nat.mod_eq_of_lt h

/-- An instruction inside the address space leaves PC at most 256: it moves on by its width, takes the
value of a register, or stays. -/
theorem pc_le_of_effect {i : Instr} {s t : State} (h : Effect s i t)
    (hcells : CellsAt s (encode i)) : t.pc.toNat ≤ 256 := by
  have hfits := hcells.fits
  have hjump (v : Byte) : (jumpTarget v).toNat ≤ 256 := by
    rw [jumpTarget_toNat]
    exact v.isLt.le
  have hnext {w : Nat} (hw : w ≤ (encode i).length) : (s.pc + BitVec.ofNat 9 w).toNat ≤ 256 := by
    rw [toNat_pc_add (by omega)]
    omega
  cases h with
  | hlt | ldi | prn | mul | cmp | jeqNot | jneNot => exact hnext (by simp [encode])
  | jmp | jeqTaken | jneTaken => exact hjump _
  | regFault => exact (Nat.le_add_right _ _).trans hfits

/-- The three outcomes of CMP (R133). -/
theorem compareFlags_outcome (x y : Byte) :
    compareFlags x y = 0x01#8 ∨ compareFlags x y = 0x02#8 ∨ compareFlags x y = 0x04#8 := by
  unfold compareFlags
  split_ifs
  · exact .inl rfl
  · exact .inr (.inr rfl)
  · exact .inr (.inl rfl)

/-- FL after an instruction is FL before it or an outcome of CMP (R30, R31). -/
theorem fl_eq_or_outcome_of_effect {i : Instr} {s t : State} (h : Effect s i t) :
    t.fl = s.fl ∨ t.fl = 0x01#8 ∨ t.fl = 0x02#8 ∨ t.fl = 0x04#8 := by
  cases h with
  | cmp => exact .inr (compareFlags_outcome _ _)
  | _ => exact .inl rfl

theorem fl_eq_or_outcome_of_step {s t : State} (h : step s = .next t) :
    t.fl = s.fl ∨ t.fl = 0x01#8 ∨ t.fl = 0x02#8 ∨ t.fl = 0x04#8 := by
  obtain ⟨-, ⟨i, -, -, heffect⟩ | ⟨r, -, rfl⟩⟩ := step_cases h
  · exact fl_eq_or_outcome_of_effect heffect
  · exact .inl rfl

theorem legalFlags_of_step {s t : State} (h : step s = .next t) (hs : LegalFlags s.fl) :
    LegalFlags t.fl := by
  obtain heq | houtcome := fl_eq_or_outcome_of_step h
  · exact heq ▸ hs
  · exact .inr houtcome

/-- PC after a step is at most 256 when it was before (R27). -/
theorem pc_le_of_step {s t : State} (h : step s = .next t) (hs : s.pc.toNat ≤ 256) :
    t.pc.toNat ≤ 256 := by
  obtain ⟨-, ⟨i, hcells, -, heffect⟩ | ⟨r, -, rfl⟩⟩ := step_cases h
  · exact pc_le_of_effect heffect hcells
  · exact hs

/-- A register index fault leaves a legal fault register (R183). -/
theorem legalFault_regFault {a : Byte} (h : 7 < a.toNat) (s : State) : LegalFault (regFault a s) := by
  have hlt : a.toNat < 256 := a.isLt
  have hinfo : (regFault a s).fault.info.toNat = a.toNat :=
    toNat_info (n := a.toNat) (by omega)
  exact .inr ⟨rfl, rfl, .inr (.inr ⟨rfl, by omega, by omega⟩)⟩

/-- A fault of the fetch from PC at most 256 leaves a legal fault register (R181, R182). -/
theorem legalFault_of_fetchCase {s : State} {r : Raised} (h : FetchCase s (.error r))
    (hpc : s.pc.toNat ≤ 256) : LegalFault (raiseFault r s) := by
  refine .inr ⟨rfl, rfl, ?_⟩
  cases h with
  | opcodeAddress h =>
    have hpc : s.pc.toNat = 256 := by omega
    exact .inr (.inl ⟨rfl, by simp [hpc], by simp [hpc]⟩)
  | unknown h u =>
    have hlt : (s.mem.read s.pc.toNat).toNat < 256 := (s.mem.read s.pc.toNat).isLt
    have hinfo := toNat_info (n := (s.mem.read s.pc.toNat).toNat) (by omega)
    refine .inl ⟨rfl, hinfo.symm ▸ hlt, ?_⟩
    change opcodeWidth (BitVec.ofNat 8 (BitVec.ofNat 9 (s.mem.read s.pc.toNat).toNat).toNat) = none
    rw [hinfo, BitVec.ofNat_toNat, BitVec.setWidth_eq]
    exact opcodeWidth_eq_none.2 u
  | operandA h => exact .inr (.inl ⟨rfl, rfl, by simp [h]⟩)
  | operandB h => exact .inr (.inl ⟨rfl, rfl, by simp [h]⟩)

/-- A step leaves a legal fault register: a completion does not touch the clear one, and both kinds of
fault entry write a legal one. -/
theorem legalFault_of_step {s t : State} (h : step s = .next t) (hs : Inv s) : LegalFault t := by
  obtain ⟨hr, ⟨i, -, -, heffect⟩ | ⟨r, hfetch, rfl⟩⟩ := step_cases h
  · obtain hfault | ⟨a, -, ha, rfl⟩ := fault_eq_or_regFault_of_effect heffect
    · exact .inl (hfault.trans (hs.fault_clear hr))
    · exact legalFault_regFault ha s
  · exact legalFault_of_fetchCase hfetch hs.pc_le

/-- Settles O17: one lemma for each field of the invariant. -/
theorem everyStepKeepsTheInvariant : Obligations.EveryStepKeepsTheInvariant :=
  fun _ _ hs h =>
    { pc_le := pc_le_of_step h hs.pc_le
      flags := legalFlags_of_step h hs.flags
      mem_wf := mem_eq_of_step h ▸ hs.mem_wf
      fault := legalFault_of_step h hs }

end Sys2Proof.Machine

/-! ### The contents of memory: canonical form, placing bytes, image load (spec/20_memory.md) -/

namespace Sys2Proof.Machine

/-- Canonical memories that read alike are equal: the first listed address of each is read as unlisted
in the other unless it is listed there too. -/
theorem Memory.ext_wfFrom : ∀ {lo : Nat} {m m' : Memory}, Memory.wfFrom lo m = true →
    Memory.wfFrom lo m' = true → (∀ a, a < 256 → m.read a = m'.read a) → m = m'
  | _, [], [], _, _, _ => rfl
  | lo, [], (k, v) :: m', _, hm', h => by
    obtain ⟨-, hk, hv, -⟩ := (Memory.wfFrom_cons ..).1 hm'
    have hread := h k hk
    rw [Memory.read_cons, if_pos rfl] at hread
    exact absurd hread.symm hv
  | lo, (k, v) :: m, [], hm, _, h => by
    obtain ⟨-, hk, hv, -⟩ := (Memory.wfFrom_cons ..).1 hm
    have hread := h k hk
    rw [Memory.read_cons, if_pos rfl] at hread
    exact absurd hread hv
  | lo, (k, v) :: m, (k', v') :: m', hm, hm', h => by
    obtain ⟨-, hk, hv, hrest⟩ := (Memory.wfFrom_cons ..).1 hm
    obtain ⟨-, hk', hv', hrest'⟩ := (Memory.wfFrom_cons ..).1 hm'
    have hat := h k hk
    have hat' := h k' hk'
    simp only [Memory.read_cons, if_true] at hat hat'
    obtain hlt | rfl | hgt := Nat.lt_trichotomy k k'
    · rw [if_neg hlt.ne', Memory.read_below hrest' (by omega)] at hat
      exact absurd hat hv
    · obtain rfl : v = v' := by simpa using hat
      refine congrArg _ (Memory.ext_wfFrom hrest hrest' fun a ha => ?_)
      obtain rfl | hne := eq_or_ne k a
      · rw [Memory.read_below hrest (Nat.lt_succ_self k), Memory.read_below hrest' (Nat.lt_succ_self k)]
      · simpa only [Memory.read_cons, if_neg hne] using h a ha
    · rw [if_neg hgt.ne', Memory.read_below hrest (by omega)] at hat'
      exact absurd hat'.symm hv'

/-- Settles O10: the whole address space is the canonical form from address 0. -/
theorem canonicalMemoriesThatReadAlikeAreEqual :
    Obligations.CanonicalMemoriesThatReadAlikeAreEqual :=
  fun _ _ => Memory.ext_wfFrom

/-- Every cell after bytes are placed at consecutive addresses that all exist. -/
theorem read_placeBytes {bs : List Byte} {a : Nat} {m : Memory} (hm : m.wf = true)
    (hfit : a + bs.length ≤ 256) (b : Nat) :
    (placeBytes a bs m).read b = if a ≤ b then bs[b - a]?.getD (m.read b) else m.read b := by
  induction bs generalizing a m with
  | nil => simp [placeBytes]
  | cons v bs ih =>
    rw [List.length_cons] at hfit
    have ha : a < Config.memSize := by show a < 256; omega
    rw [placeBytes, if_pos ha, ih (Memory.wf_write ha hm) (by omega), Memory.read_write hm]
    obtain hlt | rfl | hgt := Nat.lt_trichotomy a b
    · obtain ⟨n, rfl⟩ : ∃ n, b = a + 1 + n := ⟨b - (a + 1), by omega⟩
      have hsub : a + 1 + n - a = n + 1 := by omega
      simp [hsub, hlt.ne', hlt.le]
    · simp
    · rw [if_neg (by omega), if_neg hgt.ne, if_neg (by omega)]

/-- The bytes placed at PC stand there. -/
theorem cellsAt_placeBytes {s : State} {bs : List Byte} (hm : s.mem.wf = true)
    (hfit : s.pc.toNat + bs.length ≤ 256) :
    CellsAt { s with mem := placeBytes s.pc.toNat bs s.mem } bs := by
  refine ⟨hfit, fun k hk => ?_⟩
  rw [read_placeBytes hm hfit, if_pos (Nat.le_add_right _ _), Nat.add_sub_cancel_left,
    List.getElem?_eq_getElem hk, Option.getD_some]

theorem tableWordBytes_length (nbits w : Nat) : (tableWordBytes nbits w).length = 3 := by
  simp [tableWordBytes]

/-- A table word that decodes to an instruction begins with its encoding. -/
theorem decode_of_decodeTableWord {nbits w : Nat} {i : Instr} (h : decodeTableWord nbits w = some i) :
    ∃ rest, decode (tableWordBytes nbits w) = .ok (i, rest) := by
  unfold decodeTableWord at h
  cases hd : decode (tableWordBytes nbits w) with
  | error e => rw [hd] at h; cases h
  | ok r =>
    rw [hd] at h
    cases h
    exact ⟨r.2, rfl⟩

/-- Settles O7: the placed bytes stand at PC (`cellsAt_placeBytes`), and they decode to the
instruction. -/
theorem placedWordIsWhatTheNextStepRuns : Obligations.PlacedWordIsWhatTheNextStepRuns := by
  intro s nbits w i hr hpc hm hw
  obtain ⟨rest, hd⟩ := decode_of_decodeTableWord hw
  have hfit : s.pc.toNat + (tableWordBytes nbits w).length ≤ 256 := by
    rw [tableWordBytes_length]
    exact hpc
  exact step_of_cells hr (cellsAt_encode_of_decode (cellsAt_placeBytes hm hfit) hd)

/-! ### Image load and reset (spec/10_state.md R40, spec/70_reset_and_hazards.md R221) -/

/-- An image that fits is loaded, as its bytes placed at consecutive addresses. -/
theorem loadFrom_eq_placeBytes {img : List Byte} {k : Nat} {m : Memory} (hfit : k + img.length ≤ 256) :
    loadFrom k img m = .ok (placeBytes k img m) := by
  induction img generalizing k m with
  | nil => rfl
  | cons v img ih =>
    rw [List.length_cons] at hfit
    have hk : k < 256 := by omega
    have hk' : k < Config.memSize := hk
    simp only [loadFrom, memWrite_of_lt hk, bind, Except.bind, placeBytes, if_pos hk']
    exact ih (by omega)

theorem boot_of_le {img : List Byte} (h : img.length ≤ 256) :
    State.boot img = some { State.reset with mem := placeBytes 0 img [] } := by
  have hload : loadFrom Config.loadBase img State.reset.mem = .ok (placeBytes 0 img []) :=
    loadFrom_eq_placeBytes (by show 0 + img.length ≤ 256; omega)
  have hlen : img.length ≤ Config.memSize := h
  rw [State.boot, if_pos hlen, hload]

theorem boot_of_gt {img : List Byte} (h : 256 < img.length) : State.boot img = none :=
  if_neg (Nat.not_le.2 h)

/-- Settles O14: the loaded memory is the image placed from address 0 (`boot_of_le`), whose every cell
`read_placeBytes` gives. -/
theorem imageLoadSetsMemoryOnly : Obligations.ImageLoadSetsMemoryOnly := by
  refine fun img => ⟨fun h => ⟨_, boot_of_le h, rfl, fun a => ?_⟩, boot_of_gt⟩
  exact (read_placeBytes State.reset_mem_wf (by omega) a).trans (if_pos (Nat.zero_le a))

/-- Settles O15: every field of the invariant is a value of the reset state. -/
theorem invariantHoldsAtReset : Obligations.InvariantHoldsAtReset where
  pc_le := Nat.zero_le _
  flags := .inl rfl
  mem_wf := State.reset_mem_wf
  fault := .inl rfl

/-- Settles O16: the load changes memory alone, and keeps it canonical. -/
theorem invariantHoldsAfterImageLoad : Obligations.InvariantHoldsAfterImageLoad := by
  intro img s h
  obtain hle | hgt := le_or_gt img.length 256
  · rw [boot_of_le hle] at h
    cases h
    exact { invariantHoldsAtReset with mem_wf := placeBytes_wf State.reset_mem_wf }
  · rw [boot_of_gt hgt] at h
    cases h

/-- Settles O13: the fields of the reset state; every register is a cell of a vector of zeros. -/
theorem resetLeavesEverythingZero : Obligations.ResetLeavesEverythingZero :=
  ⟨fun _ => Vector.getElem_replicate .., rfl, rfl, rfl, rfl, rfl, fun _ => rfl⟩

end Sys2Proof.Machine

/-! ### What a step can end in (spec/40_execution_cycle.md R110, spec/60_exceptions.md R183 to R186) -/

namespace Sys2Proof.Machine

/-- Settles O20: a HALTED state stops, a RUNNING one has a next state. -/
theorem everyRunningStateHasAStep : Obligations.EveryRunningStateHasAStep := by
  intro s
  cases hr : s.rs with
  | halted => simp [step_of_halted hr]
  | running =>
    obtain ⟨t, ht⟩ := exists_step_of_running hr
    simp [ht]

/-- Of two checked operands the first one above 7 is reported (R185). -/
theorem find_above_of_pair {a b c : Byte}
    (h : c = a ∧ 7 < a.toNat ∨ c = b ∧ a.toNat ≤ 7 ∧ 7 < b.toNat) :
    [a, b].find? (fun a => decide (7 < a.toNat)) = some c := by
  obtain ⟨rfl, ha⟩ | ⟨rfl, ha, hb⟩ := h
  · simp [ha]
  · simp [hb, Nat.not_lt.2 ha]

/-- An opcode address past the end faults with that address. -/
theorem step_of_pc_past_end {s : State} (hr : s.rs = .running) (h : 256 ≤ s.pc.toNat) :
    step s = .next (raiseFault { cause := .addressFault, info := s.pc.toNat } s) := by
  refine step_of_fetch_error hr ?_
  simp only [fetchInstr, memRead_of_ge h, bind, Except.bind]

/-- Settles O21: the faults of the fetch in their order, then the index checks of MUL and CMP. -/
theorem faultPriority : Obligations.FaultPriority := by
  refine fun s hr => ⟨step_of_pc_past_end hr, step_of_unknown_opcode hr,
    fun w hw hpc hend => step_of_width_past_end hr hpc hw hend, fun a b hcells => ?_⟩
  obtain ⟨i, hi, haccess⟩ : ∃ i, CellsAt s (encode i) ∧ accessedOperands i s = [a, b] :=
    hcells.elim (fun h => ⟨.mul a b, h, rfl⟩) (fun h => ⟨.cmp a b, h, rfl⟩)
  have hfault {c : Byte} (hc : c = a ∧ 7 < a.toNat ∨ c = b ∧ a.toNat ≤ 7 ∧ 7 < b.toNat) :
      step s = .next (regFault c s) :=
    (step_of_cells hr hi).trans (exec_of_find_above (haccess ▸ find_above_of_pair hc))
  exact ⟨fun ha => hfault (.inl ⟨rfl, ha⟩), fun ha hb => hfault (.inr ⟨rfl, ha, hb⟩)⟩

/-- With every accessed operand in range an instruction completes: the fault register stays, and the
run state too unless it is HLT (R183, R33). -/
theorem completes_of_accessed_le {i : Instr} {s t : State} (h : exec i s = .next t)
    (hle : ∀ a ∈ accessedOperands i s, a.toNat ≤ 7) :
    t.fault = s.fault ∧ (t.rs = s.rs ∨ i = .hlt ∧ t.rs = .halted) := by
  cases effect_of_exec h with
  | regFault ha hgt => exact absurd hgt (Nat.not_lt.2 (hle _ ha))
  | hlt => exact ⟨rfl, .inr ⟨rfl, rfl⟩⟩
  | _ => exact ⟨rfl, .inl rfl⟩

/-- Settles O22: `exec_of_find_above` for the fault, `completes_of_accessed_le` for its absence. -/
theorem registerIndexFaultExactlyWhen : Obligations.RegisterIndexFaultExactlyWhen := by
  refine fun i s => ⟨fun a hfind => ?faults, fun hle => ?completes⟩
  case faults =>
    have hlt : a.toNat < 256 := a.isLt
    exact ⟨_, exec_of_find_above hfind, rfl, rfl, toNat_info (n := a.toNat) (by omega)⟩
  case completes =>
    obtain ⟨t, ht, -⟩ := exec_effect i s
    exact ⟨t, ht, (completes_of_accessed_le ht hle).1⟩

/-- The operands a well-formed instruction accesses name registers. -/
theorem accessed_le_of_wellFormed {i : Instr} (h : WellFormed i = true) (s : State) :
    ∀ a ∈ accessedOperands i s, a.toNat ≤ 7 := by
  cases i with
  | hlt => simp [accessedOperands]
  | jeq b =>
    rw [accessedOperands_jeq]
    split_ifs <;> simp_all [WellFormed, Nat.lt_succ_iff]
  | jne b =>
    rw [accessedOperands_jne]
    split_ifs <;> simp_all [WellFormed, Nat.lt_succ_iff]
  | _ => simp_all [accessedOperands, WellFormed, Nat.lt_succ_iff]

/-- Settles O23: every operand is in range, accessed or not. -/
theorem wellFormedInstructionsNeverFault : Obligations.WellFormedInstructionsNeverFault := by
  intro i s hwf
  obtain ⟨t, ht, -⟩ := exec_effect i s
  exact ⟨t, ht, completes_of_accessed_le ht (accessed_le_of_wellFormed hwf s)⟩

/-- The causes a fetch can raise (R181, R182). -/
theorem FetchCase.cause {s : State} {r : Raised} (h : FetchCase s (.error r)) :
    r.cause = .unknownInstruction ∨ r.cause = .addressFault := by
  cases h with
  | unknown => exact .inl rfl
  | _ => exact .inr rfl

/-- A step keeps the fault register, or is the entry of one of the three faults of the engine. -/
theorem fault_eq_or_raise_of_step {s t : State} (h : step s = .next t) :
    t.fault = s.fault ∨ ∃ r : Raised, t = raiseFault r s ∧
      (r.cause = .unknownInstruction ∨ r.cause = .addressFault ∨ r.cause = .registerIndexFault) := by
  obtain ⟨-, ⟨i, -, -, heffect⟩ | ⟨r, hfetch, ht⟩⟩ := step_cases h
  · obtain hfault | ⟨a, -, -, ht⟩ := fault_eq_or_regFault_of_effect heffect
    · exact .inl hfault
    · exact .inr ⟨_, ht, .inr (.inr rfl)⟩
  · exact .inr ⟨r, ht, hfetch.cause.imp_right .inl⟩

/-- Settles O24: a step that records a cause in a clear fault register is a fault entry, whose frame is
`raiseFault`'s. -/
theorem faultsArePrecise : Obligations.FaultsArePrecise := by
  intro s t hclear h hcause
  obtain hfault | ⟨r, rfl, hr⟩ := fault_eq_or_raise_of_step h
  · rw [hfault, hclear] at hcause
    exact absurd rfl hcause
  · exact ⟨rfl, rfl, rfl, fun _ => rfl, rfl, rfl, fun _ => rfl, hr⟩

/-- Settles O25: of the instructions only HLT writes the run state, and every other HALTED next state is
a fault entry. -/
theorem haltsOnlyByHltOrFault : Obligations.HaltsOnlyByHltOrFault := by
  intro s t h hhalted
  obtain ⟨hr, ⟨i, hcells, -, heffect⟩ | ⟨r, hfetch, rfl⟩⟩ := step_cases h
  · cases heffect with
    | hlt => exact .inl ⟨hcells, rfl, rfl⟩
    | regFault => exact .inr ⟨⟨rfl, FaultCause.noConfusion⟩, rfl, rfl⟩
    | _ => exact absurd (hr.symm.trans hhalted) RunState.noConfusion
  · exact .inr ⟨⟨rfl, hfetch.cause_ne_none⟩, rfl, rfl⟩

end Sys2Proof.Machine

/-! ### Runs of several steps -/

namespace Sys2Proof.Machine

theorem run_succ_of_step {s u : State} (h : step s = .next u) (k : Nat) :
    core.run (k + 1) s = core.run k u := by
  have h' : core.step s = .next u := h
  simp only [Host.Core.run, h']

/-- No run leaves a HALTED state (D17). -/
theorem run_succ_of_halted {s : State} (h : s.rs = .halted) (k : Nat) :
    core.run (k + 1) s = .fault .halted := by
  have h' : core.step s = .fault .halted := step_of_halted h
  simp only [Host.Core.run, h']

/-- A run of one or more steps that reaches a state begins with a step. -/
theorem exists_step_of_run_succ {k : Nat} {s t : State} (h : core.run (k + 1) s = .next t) :
    ∃ u, step s = .next u ∧ core.run k u = .next t := by
  cases hr : s.rs with
  | halted =>
    rw [run_succ_of_halted hr] at h
    cases h
  | running =>
    obtain ⟨u, hu⟩ := exists_step_of_running hr
    exact ⟨u, hu, (run_succ_of_step hu k).symm.trans h⟩

/-- What every step keeps, every run keeps. -/
theorem run_keeps {P : State → Prop} (hstep : ∀ s t, step s = .next t → P s → P t) :
    ∀ {k : Nat} {s t : State}, core.run k s = .next t → P s → P t
  | 0, _, _, h, hs => by cases h; exact hs
  | _ + 1, s, _, h, hs => by
    obtain ⟨u, hu, hrun⟩ := exists_step_of_run_succ h
    exact run_keeps hstep hrun (hstep s u hu hs)

/-- Settles O11: no step writes memory (`mem_eq_of_step`). -/
theorem memoryIsConstantInEveryRun : Obligations.MemoryIsConstantInEveryRun := by
  intro k s t h a
  have hmem : t.mem = s.mem :=
    run_keeps (P := fun u => u.mem = s.mem) (fun _ _ hstep hu => (mem_eq_of_step hstep).trans hu) h rfl
  rw [hmem]

end Sys2Proof.Machine

/-! ### The instructions one by one (spec/41_alu.md, spec/42_load_print.md, spec/43_control.md) -/

namespace Sys2Proof.Machine

/-- A three-byte instruction that begins at 254 or 255 runs past the end of memory. -/
theorem step_of_three_bytes_at_end {s : State} {op : Byte} (hw : opcodeWidth op = some 3)
    (hr : s.rs = .running) (h254 : 254 ≤ s.pc.toNat) (h255 : s.pc.toNat ≤ 255)
    (hop : s.mem.read s.pc.toNat = op) :
    step s = .next (raiseFault { cause := .addressFault, info := 256 } s) :=
  step_of_width_past_end hr h255 (hop ▸ hw) (by omega)

/-- A two-byte instruction that begins at 255 runs past the end of memory. -/
theorem step_of_two_bytes_at_end {s : State} {op : Byte} (hw : opcodeWidth op = some 2)
    (hr : s.rs = .running) (hpc : s.pc.toNat = 255) (hop : s.mem.read 255 = op) :
    step s = .next (raiseFault { cause := .addressFault, info := 256 } s) :=
  step_of_width_past_end hr hpc.le (by rw [hpc, hop, hw]) (by omega)

/-- Settles O27: `exec_ldi` and `exec_ldi_fault` at the two sides of the index check. -/
theorem ldiLoadsItsImmediate : Obligations.LdiLoadsItsImmediate := fun s _ imm =>
  ⟨fun i hi => ⟨_, exec_ldi hi imm s, fun j => State.reg_setReg s i j imm, rfl⟩,
    fun ha => ⟨_, exec_ldi_fault ha imm s, rfl, fun _ => rfl, rfl⟩,
    fun hr hcells => step_of_cells hr hcells,
    step_of_three_bytes_at_end rfl⟩

/-- Settles O28: `exec_prn` and `exec_prn_fault` at the two sides of the index check. -/
theorem prnEmitsItsRegister : Obligations.PrnEmitsItsRegister := fun s _ =>
  ⟨fun _ hi => exec_prn hi s,
    fun ha => ⟨_, exec_prn_fault ha s, rfl, rfl, rfl⟩,
    fun hr hcells => step_of_cells hr hcells,
    step_of_two_bytes_at_end rfl⟩

/-- Settles O29: `exec_mul` writes `aluMul` of the old values to one register; the index checks report
the first operand above 7. -/
theorem mulMultipliesModulo256 : Obligations.MulMultipliesModulo256 := by
  refine fun s a b => ⟨fun i j hi hj => ?product, fun c hc => ?fault,
    fun hr hcells => step_of_cells hr hcells, step_of_three_bytes_at_end rfl⟩
  case product =>
    refine ⟨_, exec_mul hi hj s, ?_, fun k hk => State.reg_setReg_other s i k _ hk, rfl⟩
    rw [State.reg_advance, State.reg_setReg_same, aluMul_toNat]
  case fault =>
    exact ⟨_, exec_of_find_above (find_above_of_pair hc), rfl, fun _ => rfl, rfl⟩

/-- The flag CMP sets is the sign of the exact difference (R133). -/
theorem compareFlags_difference (x y : Byte) :
    ((x.toNat : Int) - y.toNat = 0 → compareFlags x y = 0x01#8) ∧
    ((x.toNat : Int) - y.toNat > 0 → compareFlags x y = 0x02#8) ∧
    ((x.toNat : Int) - y.toNat < 0 → compareFlags x y = 0x04#8) := by
  unfold compareFlags
  refine ⟨fun h => ?_, fun h => ?_, fun h => ?_⟩
  · rw [if_pos (by omega)]
    rfl
  · rw [if_neg (by omega), if_neg (by omega)]
    rfl
  · rw [if_neg (by omega), if_pos (by omega)]
    rfl

/-- Settles O30: `exec_cmp` writes `compareFlags` of the values to FL; the index checks report the first
operand above 7. -/
theorem cmpRecordsTheUnsignedOutcome : Obligations.CmpRecordsTheUnsignedOutcome := fun s _ _ =>
  ⟨fun i j hi hj => ⟨_, exec_cmp hi hj s, rfl, compareFlags_difference (s.reg i) (s.reg j)⟩,
    fun _ hc => ⟨_, exec_of_find_above (find_above_of_pair hc), rfl, rfl, rfl⟩,
    fun hr hcells => step_of_cells hr hcells,
    step_of_three_bytes_at_end rfl⟩

/-- Settles O31: PC at most 255 does not wrap, and the next state is HALTED (`run_succ_of_halted`). -/
theorem hltHaltsForGood : Obligations.HltHaltsForGood := by
  refine fun s => ⟨exec_hlt s, fun hr hcells => ?_⟩
  refine ⟨_, (step_of_cells (i := .hlt) hr hcells).trans (exec_hlt s), rfl,
    toNat_pc_add (w := 1) hcells.fits, fun hclear => ?_, run_succ_of_halted rfl⟩
  have hcause : s.fault.cause = .none := by rw [hclear]; rfl
  exact ⟨⟨rfl, hcause⟩, by simp [exitStatus, hcause, FaultCause.code]⟩

/-- Where a jump that succeeds goes: two names of one register hold one target. -/
theorem setPc_jumpTarget_toNat {a : Byte} {i r : Fin 8} (hi : i.val = a.toNat) (hr : r.val = a.toNat)
    (s : State) : (s.setPc (jumpTarget (s.reg i))).pc.toNat = (s.reg r).toNat := by
  obtain rfl : i = r := Fin.ext (hi.trans hr.symm)
  exact jumpTarget_toNat _

/-- A jump to PC itself leaves the state as it was. -/
theorem setPc_jumpTarget_self {s : State} {v : Byte} (h : v.toNat = s.pc.toNat) :
    s.setPc (jumpTarget v) = s := by
  have hpc : jumpTarget v = s.pc := BitVec.eq_of_toNat_eq ((jumpTarget_toNat v).trans h)
  rw [hpc]
  rfl

/-- Settles O32: `exec_jmp` and `exec_jmp_fault` at the two sides of the index check. -/
theorem jmpAlwaysJumps : Obligations.JmpAlwaysJumps := by
  refine fun s a => ⟨fun i hi => ⟨_, exec_jmp hi s, rfl, jumpTarget_toNat _⟩,
    fun ha => ⟨_, exec_jmp_fault ha s, rfl, rfl⟩, fun hr hcells => ?_, step_of_two_bytes_at_end rfl⟩
  have hstep : step s = exec (.jmp a) s := step_of_cells hr hcells
  refine ⟨hstep, fun i hi hself => ?_⟩
  rw [hstep, exec_jmp hi, setPc_jumpTarget_self hself]

/-- Settles O33: the two values of bit 0, and when it is set the two sides of the index check. -/
theorem jeqJumpsWhenEqualIsSet : Obligations.JeqJumpsWhenEqualIsSet := fun _ a =>
  ⟨fun hset _ hi => ⟨_, exec_jeq_taken hset hi, rfl, jumpTarget_toNat _⟩,
    fun hset ha => exec_jeq_fault hset ha,
    fun hclear => exec_jeq_not hclear a,
    fun hr hcells => step_of_cells hr hcells,
    step_of_two_bytes_at_end rfl⟩

/-- Settles O34: FL zero or not, and when it is the two sides of the index check. -/
theorem jneJumpsWhenFlagsAreZero : Obligations.JneJumpsWhenFlagsAreZero := fun _ a =>
  ⟨fun hzero _ hi => ⟨_, exec_jne_taken (decide_eq_true hzero) hi, rfl, jumpTarget_toNat _⟩,
    fun hzero ha => exec_jne_fault (decide_eq_true hzero) ha,
    fun hne => exec_jne_not (decide_eq_false hne) a,
    fun hr hcells => step_of_cells hr hcells,
    step_of_two_bytes_at_end rfl⟩

/-- A jump that is taken sets PC to its register's value and nothing else (R164). -/
theorem exec_jump_taken {s : State} {a : Byte} {i : Fin 8} {jump : Instr} (hi : i.val = a.toNat)
    (hjump : jump = .jmp a ∨ jump = .jeq a ∧ equalSet s.fl = true ∨
      jump = .jne a ∧ flagsClear s.fl = true) :
    exec jump s = .next (s.setPc (jumpTarget (s.reg i))) := by
  obtain rfl | ⟨rfl, hset⟩ | ⟨rfl, hclear⟩ := hjump
  · exact exec_jmp hi s
  · exact exec_jeq_taken hset hi
  · exact exec_jne_taken hclear hi

/-- Settles O35: the jump writes PC alone (`exec_jump_taken`), and the faults are the fetch's at the
target. -/
theorem jumpsReplacePcWithTheRegister : Obligations.JumpsReplacePcWithTheRegister := by
  intro s a i jump hi hjump
  have htarget : (jumpTarget (s.reg i)).toNat ≤ 255 := by
    rw [jumpTarget_toNat]
    exact Nat.le_of_lt_succ (s.reg i).isLt
  exact ⟨_, exec_jump_taken hi hjump, jumpTarget_toNat _, htarget, fun _ => rfl, rfl,
    fun hr hw => ⟨_, step_of_unknown_opcode hr htarget hw, rfl, rfl⟩,
    fun _ hr hw hend => ⟨_, step_of_width_past_end hr htarget hw hend, rfl, rfl⟩⟩

/-- Settles O36: with the accessed operands in range each instruction's effect is its completion, whose
PC does not wrap since the instruction stands inside the address space. -/
theorem pcAfterEveryCompletedStep : Obligations.PcAfterEveryCompletedStep := by
  intro i s hr hcells hle
  obtain ⟨t, ht, heffect⟩ := exec_effect i s
  have hnext {w : Nat} (hw : w ≤ (encode i).length) :
      (s.pc + BitVec.ofNat 9 w).toNat = s.pc.toNat + w :=
    toNat_pc_add ((Nat.add_le_add_left hw _).trans hcells.fits)
  refine ⟨t, (step_of_cells hr hcells).trans ht, ?halted, ?pc⟩
  case halted =>
    cases heffect with
    | hlt => exact ⟨fun _ => rfl, fun _ => rfl⟩
    | regFault ha hgt => exact absurd hgt (Nat.not_lt.2 (hle _ ha))
    | _ => exact ⟨fun h => absurd (hr.symm.trans h) RunState.noConfusion, fun h => by cases h⟩
  case pc =>
    cases heffect with
    | hlt | ldi | prn | mul | cmp => exact hnext (le_refl _)
    | jmp r hreg => exact fun r' hreg' => setPc_jumpTarget_toNat hreg hreg' s
    | jeqTaken r hreg c =>
      exact ⟨fun _ r' hreg' => setPc_jumpTarget_toNat hreg hreg' s,
        fun c' => absurd (c.symm.trans c') Bool.noConfusion⟩
    | jeqNot c =>
      exact ⟨fun c' => absurd (c.symm.trans c') Bool.noConfusion, fun _ => hnext (le_refl _)⟩
    | jneTaken r hreg c =>
      exact ⟨fun _ r' hreg' => setPc_jumpTarget_toNat hreg hreg' s,
        fun hne => absurd (of_decide_eq_true c) hne⟩
    | jneNot c =>
      exact ⟨fun hzero => absurd hzero (of_decide_eq_false c), fun _ => hnext (le_refl _)⟩
    | regFault ha hgt => exact absurd hgt (Nat.not_lt.2 (hle _ ha))

end Sys2Proof.Machine

/-! ### Frames (spec/10_state.md sections 2 to 5) -/

namespace Sys2Proof.Machine

/-- An instruction that accesses an operand above 7 is the fault entry of such an operand. -/
theorem eq_regFault_of_accessed_gt {i : Instr} {s t : State} (h : exec i s = .next t)
    (hgt : ∃ a ∈ accessedOperands i s, 7 < a.toNat) : ∃ a, t = regFault a s := by
  obtain ⟨a, -, rfl⟩ | ⟨hle, -⟩ := fault_or_complete_of_exec h
  · exact ⟨a, rfl⟩
  · obtain ⟨a, ha, hgt⟩ := hgt
    exact absurd hgt (hle a ha)

/-- Only HLT and the fault entry write the run state. -/
theorem rs_eq_of_accessed_le {i : Instr} {s t : State} (h : exec i s = .next t)
    (hle : ∀ a ∈ accessedOperands i s, a.toNat ≤ 7) (hhlt : i ≠ .hlt) : t.rs = s.rs :=
  (completes_of_accessed_le h hle).2.resolve_right fun hi => hhlt hi.1

/-- Only LDI and MUL write a register. -/
theorem reg_eq_of_effect {i : Instr} {s t : State} (h : Effect s i t) (hldi : ∀ a b, i ≠ .ldi a b)
    (hmul : ∀ a b, i ≠ .mul a b) (j : Fin 8) : t.reg j = s.reg j := by
  by_contra hne
  obtain ⟨a, b, -, hi | hi⟩ := ldi_or_mul_of_reg_ne h hne
  · exact hldi a b hi
  · exact hmul a b hi

/-- Only PRN writes the output. -/
theorem out_eq_of_effect {i : Instr} {s t : State} (h : Effect s i t) (hprn : ∀ a, i ≠ .prn a) :
    t.out = s.out := by
  cases h with
  | prn => exact absurd rfl (hprn _)
  | _ => rfl

theorem read_eq_of_effect {i : Instr} {s t : State} (h : Effect s i t) (x : Nat) :
    t.mem.read x = s.mem.read x := by rw [mem_eq_of_effect h]

/-- LDI and MUL write no register but operand_a. -/
theorem reg_eq_of_ldi_or_mul {i : Instr} {a b : Byte} {s t : State} (h : Effect s i t)
    (hi : i = .ldi a b ∨ i = .mul a b) {j : Fin 8} (hj : j.val ≠ a.toNat) : t.reg j = s.reg j := by
  by_contra hne
  obtain ⟨a', b', hj', hi'⟩ := ldi_or_mul_of_reg_ne h hne
  obtain rfl : a = a' := by
    obtain rfl | rfl := hi <;> simp_all
  exact hj hj'

/-- Settles O38: no other register by `reg_eq_of_ldi_or_mul`; the operands the two instructions access
decide between the fault entry and the completion. -/
theorem frameOfLdiAndMul : Obligations.FrameOfLdiAndMul := by
  intro i a b s t hi h
  have heffect := effect_of_exec h
  refine ⟨fun j hj => reg_eq_of_ldi_or_mul heffect hi hj, fun hgt => ?faults, fun ha hb => ?completes,
    fl_eq_of_effect heffect (by rintro _ _ rfl; simp at hi),
    out_eq_of_effect heffect (by rintro _ rfl; simp at hi), read_eq_of_effect heffect⟩
  case faults =>
    have haccess : ∃ c ∈ accessedOperands i s, 7 < c.toNat := by
      obtain rfl | rfl := hi
      · exact ⟨a, .head _, hgt.resolve_right fun hmul => Instr.noConfusion hmul.1⟩
      · obtain ha | ⟨-, hb⟩ := hgt
        · exact ⟨a, .head _, ha⟩
        · exact ⟨b, .tail _ (.head _), hb⟩
    obtain ⟨c, rfl⟩ := eq_regFault_of_accessed_gt h haccess
    exact ⟨fun _ => rfl, rfl⟩
  case completes =>
    have hle : ∀ c ∈ accessedOperands i s, c.toNat ≤ 7 := by
      obtain rfl | rfl := hi
      · simpa [accessedOperands] using ha
      · simpa [accessedOperands] using ⟨ha, hb rfl⟩
    exact ⟨(completes_of_accessed_le h hle).1,
      rs_eq_of_accessed_le h hle (by rintro rfl; simp at hi)⟩

/-- Settles O39: CMP is none of the writers of registers and output. -/
theorem frameOfCmp : Obligations.FrameOfCmp := by
  intro a b s t h
  have heffect := effect_of_exec h
  refine ⟨reg_eq_of_effect heffect (by simp) (by simp), out_eq_of_effect heffect (by simp),
    read_eq_of_effect heffect, fun ha hb => ?completes, fun hgt => ?faults⟩
  case completes =>
    have hle : ∀ c ∈ accessedOperands (.cmp a b) s, c.toNat ≤ 7 := by
      simpa [accessedOperands] using ⟨ha, hb⟩
    exact ⟨(completes_of_accessed_le h hle).1, rs_eq_of_accessed_le h hle (by simp)⟩
  case faults =>
    have haccess : ∃ c ∈ accessedOperands (.cmp a b) s, 7 < c.toNat := by
      simpa [accessedOperands] using hgt
    obtain ⟨c, rfl⟩ := eq_regFault_of_accessed_gt h haccess
    exact ⟨rfl, rfl⟩

/-- Settles O40: PRN is none of the writers of registers and FL, and `exec_prn` appends one byte. -/
theorem frameOfPrn : Obligations.FrameOfPrn := by
  intro a s t h
  have heffect := effect_of_exec h
  refine ⟨reg_eq_of_effect heffect (by simp) (by simp), fl_eq_of_effect heffect (by simp),
    read_eq_of_effect heffect, fun ha => ?completes, fun hgt => ?faults⟩
  case completes =>
    obtain ⟨i, hi⟩ := exists_reg_of_le ha
    rw [exec_prn hi] at h
    cases h
    exact ⟨rfl, rfl, s.reg i, rfl⟩
  case faults =>
    rw [exec_prn_fault hgt] at h
    cases h
    exact ⟨rfl, rfl⟩

/-- Settles O41: HLT and the jumps are none of the writers of registers, FL and output. -/
theorem frameOfControlTransfer : Obligations.FrameOfControlTransfer := by
  intro i a s t hi h
  have heffect := effect_of_exec h
  exact ⟨reg_eq_of_effect heffect (by rintro _ _ rfl; simp at hi) (by rintro _ _ rfl; simp at hi),
    fl_eq_of_effect heffect (by rintro _ _ rfl; simp at hi),
    out_eq_of_effect heffect (by rintro _ rfl; simp at hi), read_eq_of_effect heffect,
    fun hle => (completes_of_accessed_le h hle).1, fun hhlt hle => rs_eq_of_accessed_le h hle hhlt⟩

/-- Settles O42: a step that writes a register runs the instruction at PC, an LDI or a MUL
(`ldi_or_mul_of_reg_ne`). -/
theorem registersAreWrittenOnlyByLdiAndMul : Obligations.RegistersAreWrittenOnlyByLdiAndMul := by
  intro s t j h hne
  obtain ⟨-, ⟨i, hcells, -, heffect⟩ | ⟨r, -, rfl⟩⟩ := step_cases h
  · obtain ⟨a, b, hj, rfl | rfl⟩ := ldi_or_mul_of_reg_ne heffect hne
    · exact ⟨a, b, hj, .inl hcells⟩
    · exact ⟨a, b, hj, .inr hcells⟩
  · exact absurd rfl hne

end Sys2Proof.Machine

/-! ### FL once a CMP has run (spec/10_state.md R30, spec/43_control.md R162, R166) -/

namespace Sys2Proof.Machine

/-- Settles O44: a step keeps FL or writes an outcome (`fl_eq_or_outcome_of_step`). -/
theorem flagsStayAnOutcomeOnceCompared : Obligations.FlagsStayAnOutcomeOnceCompared := by
  intro k s t hs h
  refine run_keeps (P := fun u => u.fl = 0x01#8 ∨ u.fl = 0x02#8 ∨ u.fl = 0x04#8)
    (fun u v hstep hu => ?_) h hs
  obtain heq | houtcome := fl_eq_or_outcome_of_step hstep
  · rwa [heq]
  · exact houtcome

/-- No outcome of CMP meets JNE's condition. -/
theorem flagsClear_of_outcome {fl : Byte} (h : fl = 0x01#8 ∨ fl = 0x02#8 ∨ fl = 0x04#8) :
    flagsClear fl = false := by
  obtain rfl | rfl | rfl := h <;> rfl

/-- Settles O45: CMP leaves an outcome, which the run keeps (O44) and on which JNE is not taken. -/
theorem noJneIsTakenAfterACompare : Obligations.NoJneIsTakenAfterACompare := by
  intro k s t u a b c hcells ha hb hstep hrun hr hjne
  obtain ⟨i, hi⟩ := exists_reg_of_le ha
  obtain ⟨j, hj⟩ := exists_reg_of_le hb
  rw [step_of_cells (i := .cmp a b) (running_of_step hstep) hcells, exec_cmp hi hj] at hstep
  cases hstep
  have houtcome := flagsStayAnOutcomeOnceCompared k _ u (compareFlags_outcome _ _) hrun
  exact (step_of_cells (i := .jne c) hr hjne).trans (exec_jne_not (flagsClear_of_outcome houtcome) c)

/-- JEQ's condition after a CMP: the values were equal. -/
theorem equalSet_compareFlags (x y : Byte) : equalSet (compareFlags x y) = decide (x = y) := by
  unfold compareFlags
  by_cases hxy : x = y
  · simp [hxy, equalSet, flagE]
  · have hne : x.toNat ≠ y.toNat := fun h => hxy (BitVec.eq_of_toNat_eq h)
    rw [if_neg hne, decide_eq_false hxy]
    split_ifs <;> rfl

/-- Settles O46: the CMP leaves FL so that JEQ's condition is equality (`equalSet_compareFlags`). -/
theorem jeqFollowsTheMostRecentCompare : Obligations.JeqFollowsTheMostRecentCompare := by
  intro s a b c i j l hi hj hl
  have hset : equalSet ((s.setFl (compareFlags (s.reg i) (s.reg j))).advance 3).fl =
      decide (s.reg i = s.reg j) := equalSet_compareFlags _ _
  by_cases heq : s.reg i = s.reg j
  · rw [decide_eq_true heq] at hset
    exact ⟨_, _, exec_cmp hi hj s, exec_jeq_taken hset hl, fun _ => jumpTarget_toNat _, absurd heq⟩
  · rw [decide_eq_false heq] at hset
    exact ⟨_, _, exec_cmp hi hj s, exec_jeq_not hset c, fun h => absurd h heq,
      fun _ => BitVec.add_assoc ..⟩

end Sys2Proof.Machine

/-! ### ALU ADD is no instruction (spec/41_alu.md R131, the spec's decision D12) -/

namespace Sys2Proof.Machine

/-- The reset state with every register holding `v`. -/
def State.allRegs (v : Byte) : State := { State.reset with regs := Vector.replicate 8 v }

@[simp] theorem State.reg_allRegs (v : Byte) (i : Fin 8) : (State.allRegs v).reg i = v :=
  Vector.getElem_replicate ..

/-- With every register 1, no instruction leaves a 2 but an LDI of that value: MUL leaves 1. -/
theorem reg_ne_two_of_effect {i : Instr} {t : State} {k : Fin 8} (h : Effect (State.allRegs 1#8) i t)
    (hldi : ∀ c, k.val = c.toNat → i ≠ .ldi c 2#8) : t.reg k ≠ 2#8 := by
  have hone : (State.allRegs 1#8).reg k ≠ 2#8 := by
    rw [State.reg_allRegs]
    decide
  cases h with
  | ldi r hr imm =>
    rw [State.reg_advance, State.reg_setReg]
    split_ifs with hk
    · rintro rfl
      exact hldi _ (hk ▸ hr) rfl
    · exact hone
  | mul r r' =>
    rw [State.reg_advance, State.reg_setReg, State.reg_allRegs, State.reg_allRegs, State.reg_allRegs]
    split_ifs <;> decide
  | _ => exact hone

/-- In a state whose registers all hold `v`, ADD leaves `v + v` in its first register. -/
theorem aluApply_add_allRegs {a b : Byte} {i j : Fin 8} (hi : i.val = a.toNat) (hj : j.val = b.toNat)
    (v : Byte) : ∃ u, aluApply .add a b (State.allRegs v) = .ok u ∧ u.reg i = aluAdd v v :=
  ⟨_, aluApply_of_eq hi hj .add _, by simp [aluEffect]⟩

/-- Settles O48: the sum is `aluAdd`; with every register 1 the ADD leaves a 2, which no instruction
does but an LDI of 2, and with every register 0 the ADD leaves a 0, which that LDI does not. -/
theorem aluAddWrapsAndHasNoOpcode : Obligations.AluAddWrapsAndHasNoOpcode := by
  refine ⟨fun a b i j s hi hj => ?sum, rfl, fun instr a b ha hb => ?noInstruction⟩
  case sum =>
    refine ⟨_, aluApply_of_eq hi hj .add s, ?_, fun k hk => aluEffect_reg_other .add hk j s,
      aluEffect_writes_regs (op := .add) (by decide) i j s⟩
    rw [aluEffect, State.reg_setReg_same, aluAdd_toNat]
  case noInstruction =>
    obtain ⟨i, hi⟩ := exists_reg_of_le ha
    obtain ⟨j, hj⟩ := exists_reg_of_le hb
    by_cases hldi : ∃ c, i.val = c.toNat ∧ instr = .ldi c 2#8
    · obtain ⟨c, hc, rfl⟩ := hldi
      obtain ⟨u, hu, hsum⟩ := aluApply_add_allRegs hi hj 0#8
      refine ⟨_, _, u, exec_ldi hc 2#8 (State.allRegs 0#8), hu, i, ?_⟩
      rw [State.reg_advance, State.reg_setReg_same, hsum]
      decide
    · obtain ⟨u, hu, hsum⟩ := aluApply_add_allRegs hi hj 1#8
      obtain ⟨t, ht, heffect⟩ := exec_effect instr (State.allRegs 1#8)
      refine ⟨_, t, u, ht, hu, i, ?_⟩
      rw [hsum]
      exact reg_ne_two_of_effect heffect fun c hc hinstr => hldi ⟨c, hc, hinstr⟩

end Sys2Proof.Machine

/-! ### The output and the fault register (spec/10_state.md R34, R35) -/

namespace Sys2Proof.Machine

/-- Settles O49: a step that writes the output runs the instruction at PC, and it is a PRN. -/
theorem outputGrowsOnlyByPrn : Obligations.OutputGrowsOnlyByPrn := by
  intro s t h hne
  obtain ⟨-, ⟨i, hcells, -, heffect⟩ | ⟨r, -, rfl⟩⟩ := step_cases h
  · cases heffect with
    | prn r hr => exact ⟨_, r, hcells, hr, rfl⟩
    | _ => exact absurd rfl hne
  · exact absurd rfl hne

/-- A step appends at most one byte to the output. -/
theorem out_append_of_step {s t : State} (h : step s = .next t) :
    ∃ tail, t.out = s.out ++ tail ∧ tail.length ≤ 1 := by
  by_cases heq : t.out = s.out
  · exact ⟨[], by rw [heq, List.append_nil], Nat.zero_le 1⟩
  · obtain ⟨a, i, -, -, hout⟩ := outputGrowsOnlyByPrn s t h heq
    exact ⟨[s.reg i], hout, le_refl 1⟩

/-- Settles O50, by induction on the number of steps (`out_append_of_step`). -/
theorem outputIsOnlyAppendedTo : Obligations.OutputIsOnlyAppendedTo := by
  intro k
  induction k with
  | zero =>
    intro s t h
    cases h
    exact ⟨[], (List.append_nil _).symm, le_refl 0⟩
  | succ k ih =>
    intro s t h
    obtain ⟨u, hu, hrun⟩ := exists_step_of_run_succ h
    obtain ⟨first, hfirst, hlen⟩ := out_append_of_step hu
    obtain ⟨tail, htail, hlen'⟩ := ih u t hrun
    refine ⟨first ++ tail, by rw [htail, hfirst, List.append_assoc], ?_⟩
    rw [List.length_append]
    omega

/-- The state with other bytes before its output and another fault register. -/
def State.withTrace (s : State) (before : List Byte) (f : FaultReg) : State :=
  { s with out := before ++ s.out, fault := f }

@[simp] theorem accessedOperands_withTrace (i : Instr) (s : State) (before : List Byte)
    (f : FaultReg) : accessedOperands i (s.withTrace before f) = accessedOperands i s := by
  cases i <;> rfl

/-- The fault entry writes the fault register whatever it held, and does not look at the output. -/
theorem raiseFault_withTrace (r : Raised) (s : State) (before : List Byte) (f : FaultReg) :
    raiseFault r (s.withTrace before f) =
      (raiseFault r s).withTrace before (raiseFault r s).fault := rfl

theorem emit_withTrace (s : State) (before : List Byte) (f : FaultReg) (v : Byte) :
    (s.withTrace before f).emit v = (s.emit v).withTrace before f := by
  simp [State.emit, State.withTrace]

/-- The output and the fault register pass through every instruction. -/
theorem exec_withTrace {i : Instr} {s t : State} (before : List Byte) (f : FaultReg)
    (h : exec i s = .next t) :
    ∃ f', exec i (s.withTrace before f) = .next (t.withTrace before f') := by
  obtain ⟨a, hfind, rfl⟩ | ⟨hle, heffect⟩ := fault_or_complete_of_exec h
  · exact ⟨_, exec_of_find_above (by rwa [accessedOperands_withTrace])⟩
  refine ⟨f, ?_⟩
  cases heffect with
  | hlt => exact exec_hlt _
  | ldi r hr imm => exact exec_ldi hr imm _
  | prn r hr =>
    rw [exec_prn hr, emit_withTrace]
    rfl
  | mul r r' hr hr' => exact exec_mul hr hr' _
  | cmp r r' hr hr' => exact exec_cmp hr hr' _
  | jmp r hr => exact exec_jmp hr _
  | jeqTaken r hr c => exact exec_jeq_taken (s := s.withTrace before f) c hr
  | jeqNot c => exact exec_jeq_not (s := s.withTrace before f) c _
  | jneTaken r hr c => exact exec_jne_taken (s := s.withTrace before f) c hr
  | jneNot c => exact exec_jne_not (s := s.withTrace before f) c _
  | regFault ha hgt => exact absurd hgt (hle _ ha)

/-- The fetch looks at PC and memory alone. -/
theorem fetchInstr_congr {s s' : State} (hpc : s'.pc = s.pc) (hmem : s'.mem = s.mem) :
    fetchInstr s' = fetchInstr s := by
  have hoperands (f : Format) : fetchOperands s' f = fetchOperands s f := by
    cases f <;> simp only [fetchOperands, hpc, hmem]
  simp only [fetchInstr, hoperands, hpc, hmem]

/-- The output and the fault register pass through every step. -/
theorem step_withTrace {s t : State} (before : List Byte) (f : FaultReg) (h : step s = .next t) :
    ∃ f', step (s.withTrace before f) = .next (t.withTrace before f') := by
  have hr := running_of_step h
  have hr' : (s.withTrace before f).rs = .running := hr
  have hfetch : fetchInstr (s.withTrace before f) = fetchInstr s := fetchInstr_congr rfl rfl
  cases hf : fetchInstr s with
  | ok i =>
    rw [step_of_fetch_ok hr hf] at h
    rw [step_of_fetch_ok hr' (hfetch.trans hf)]
    exact exec_withTrace before f h
  | error r =>
    rw [step_of_fetch_error hr hf] at h
    cases h
    exact ⟨_, (step_of_fetch_error hr' (hfetch.trans hf)).trans
      (congrArg _ (raiseFault_withTrace r s before f))⟩

/-- The output and the fault register pass through every run. -/
theorem run_withTrace : ∀ {k : Nat} {s t : State} (before : List Byte) (f : FaultReg),
    core.run k s = .next t → ∃ f', core.run k (s.withTrace before f) = .next (t.withTrace before f')
  | 0, _, _, _, f, h => by cases h; exact ⟨f, rfl⟩
  | k + 1, _, _, before, f, h => by
    obtain ⟨u, hu, hrun⟩ := exists_step_of_run_succ h
    obtain ⟨f', hu'⟩ := step_withTrace before f hu
    rw [run_succ_of_step hu' k]
    exact run_withTrace before f' hrun

/-- Settles O51: the other state is `s.withTrace before f`. -/
theorem outputAndFaultRegisterAreNeverRead : Obligations.OutputAndFaultRegisterAreNeverRead := by
  intro k s t before f h
  obtain ⟨f', hrun⟩ := run_withTrace before f h
  exact ⟨t.withTrace before f', hrun, rfl⟩

end Sys2Proof.Machine

/-! ### What the host sees (spec/60_exceptions.md R191, spec/42_load_print.md R152) -/

namespace Sys2Proof.Machine

/-- The causes in the order of their codes (R180). -/
theorem getElem?_code_toNat (c : FaultCause) :
    [FaultCause.none, .unknownInstruction, .sourceNotFound, .addressFault, .registerIndexFault,
      .unsupportedAluOp, .malformedProgram, .programTooLarge][c.code.toNat]? = some c := by
  cases c <;> rfl

/-- Different causes have different codes. -/
theorem FaultCause.code_toNat_inj {c d : FaultCause} (h : c.code.toNat = d.code.toNat) : c = d := by
  have hc := getElem?_code_toNat c
  rw [h, getElem?_code_toNat d] at hc
  exact (Option.some.inj hc).symm

theorem exitStatus_of_halted {s : State} (h : s.rs = .halted) :
    exitStatus s = some s.fault.cause.code.toNat := by simp [exitStatus, h]

theorem exitStatus_of_running {s : State} (h : s.rs = .running) : exitStatus s = none := by
  simp [exitStatus, h]

/-- Settles O52: the status is the code of the cause, and the codes are distinct. -/
theorem exitStatusIsZeroExactlyOnNormalEnd : Obligations.ExitStatusIsZeroExactlyOnNormalEnd := by
  refine ⟨fun s => ?zero, fun s => ?absent, fun s t hs ht h => ?distinct⟩
  case zero =>
    cases hr : s.rs with
    | running => simp [exitStatus_of_running hr, NormalEnd, hr]
    | halted =>
      rw [exitStatus_of_halted hr, Option.some_inj]
      exact ⟨fun h => ⟨hr, FaultCause.code_toNat_inj (d := .none) h⟩, fun ⟨_, h⟩ => by rw [h]; rfl⟩
  case absent =>
    cases hr : s.rs with
    | running => simp [exitStatus_of_running hr]
    | halted => simp [exitStatus_of_halted hr]
  case distinct =>
    rw [exitStatus_of_halted hs, exitStatus_of_halted ht, Option.some_inj] at h
    exact FaultCause.code_toNat_inj h

/-- The code point of a decimal digit. -/
theorem toNat_decimalDigit {d : Nat} (h : d < 10) : (decimalDigit d).toNat = 48 + d := by
  have hvalid : (48 + d).isValidChar := .inl (by omega)
  simp [decimalDigit, Char.ofNat, hvalid]

theorem decimalDigit_eq_zero_iff {d : Nat} (h : d < 10) : decimalDigit d = '0' ↔ d = 0 := by
  refine ⟨fun heq => ?_, by rintro rfl; rfl⟩
  have hcode := toNat_decimalDigit h
  rw [heq] at hcode
  have hzero : '0'.toNat = 48 := rfl
  omega

/-- The value of a text of decimal digits is the value of the digits. -/
theorem foldl_map_decimalDigit {ds : List Nat} (h : ∀ d ∈ ds, d < 10) (acc : Nat) :
    (ds.map decimalDigit).foldl (fun n c => 10 * n + (c.toNat - 48)) acc =
      ds.foldl (fun n d => 10 * n + d) acc := by
  induction ds generalizing acc with
  | nil => rfl
  | cons d ds ih =>
    obtain ⟨hd, hds⟩ := List.forall_mem_cons.1 h
    rw [List.map_cons, List.foldl_cons, List.foldl_cons, toNat_decimalDigit hd, Nat.add_sub_cancel_left,
      ih hds]

/-- The digits of a byte's numeral: one, two or three of them, of the byte's value, and the first is 0
only for the value 0. -/
theorem exists_digits_of_decimal (v : Byte) : ∃ ds : List Nat, decimal v = ds.map decimalDigit ∧
    ds ≠ [] ∧ (∀ d ∈ ds, d < 10) ∧ ds.foldl (fun n d => 10 * n + d) 0 = v.toNat ∧
    (ds.head? = some 0 → ds = [0]) := by
  have hv : v.toNat < 256 := v.isLt
  unfold decimal
  split_ifs with h10 h100
  · exact ⟨[v.toNat], rfl, by simp, by simpa using h10, by simp, by simp⟩
  · refine ⟨[v.toNat / 10, v.toNat % 10], rfl, by simp, ?_, ?_, ?_⟩ <;> simp <;> omega
  · refine ⟨[v.toNat / 100, v.toNat / 10 % 10, v.toNat % 10], rfl, by simp, ?_, ?_, ?_⟩ <;>
      simp <;> omega

/-- Settles O53: the text is the digits of the value (`exists_digits_of_decimal`), each with its own
character. -/
theorem renderedOutputIsDecimal : Obligations.RenderedOutputIsDecimal := by
  intro v
  obtain ⟨ds, htext, hne, hdigit, hvalue, hlead⟩ := exists_digits_of_decimal v
  rw [htext]
  refine ⟨by simpa using hne, (foldl_map_decimalDigit hdigit 0).trans hvalue, ?_, fun hhead => ?_⟩
  · intro c hc
    obtain ⟨d, hd, rfl⟩ := List.mem_map.1 hc
    have hlt := hdigit d hd
    rw [toNat_decimalDigit hlt]
    omega
  · rw [List.head?_map, Option.map_eq_some_iff] at hhead
    obtain ⟨d, hd, hzero⟩ := hhead
    have hd0 : d = 0 := (decimalDigit_eq_zero_iff (hdigit d (List.mem_of_head? hd))).1 hzero
    rw [hlead (hd0 ▸ hd)]
    rfl

end Sys2Proof.Machine

/-! ### The Loader's lines and tokens (spec/30_encoding.md R90) -/

namespace Sys2Proof.Machine

/-- A line ends at its line feed. -/
theorem splitLines_line {l : List Char} (h : '\n' ∉ l) (rest : List Char) :
    splitLines (l ++ '\n' :: rest) = l :: splitLines rest := by
  induction l with
  | nil => simp [splitLines]
  | cons c l ih =>
    obtain ⟨hc, hl⟩ := not_or.1 (List.mem_cons.not.1 h)
    simp [splitLines, Ne.symm hc, ih hl]

/-- A text without a line feed is one line. -/
theorem splitLines_of_not_mem {l : List Char} (h : '\n' ∉ l) : splitLines l = [l] := by
  induction l with
  | nil => rfl
  | cons c l ih =>
    obtain ⟨hc, hl⟩ := not_or.1 (List.mem_cons.not.1 h)
    simp [splitLines, Ne.symm hc, ih hl]

/-- The tokens a single line adds. -/
theorem filter_singleton_nonempty (t : List Char) :
    [t].filter (fun t => !t.isEmpty) = if t = [] then [] else [t] := by
  cases t <;> simp

theorem significantTokens_line {l : List Char} (h : '\n' ∉ l) (rest : List Char) :
    significantTokens (l ++ '\n' :: rest) =
      (if lineToken l = [] then [] else [lineToken l]) ++ significantTokens rest := by
  rw [significantTokens, splitLines_line h, List.map_cons, ← List.singleton_append, List.filter_append,
    filter_singleton_nonempty]
  rfl

theorem significantTokens_of_not_mem {l : List Char} (h : '\n' ∉ l) :
    significantTokens l = if lineToken l = [] then [] else [lineToken l] := by
  rw [significantTokens, splitLines_of_not_mem h, List.map_singleton, filter_singleton_nonempty]

/-- Leading white space is stripped up to the first character that is none. -/
theorem dropWhile_isBlank_append {before x : List Char} (hb : ∀ c ∈ before, isBlank c = true)
    (hx : ∀ c, x.head? = some c → isBlank c = false) : (before ++ x).dropWhile isBlank = x := by
  rw [List.dropWhile_append_of_pos hb]
  cases x with
  | nil => rfl
  | cons c x => exact List.dropWhile_cons_of_neg (by simp [hx c rfl])

/-- White space is stripped on both sides of a token whose ends are none. -/
theorem trim_eq_token {before token after : List Char} (hb : ∀ c ∈ before, isBlank c = true)
    (ha : ∀ c ∈ after, isBlank c = true)
    (hends : ∀ c, token.head? = some c ∨ token.getLast? = some c → isBlank c = false) :
    (((before ++ token ++ after).dropWhile isBlank).reverse.dropWhile isBlank).reverse = token := by
  have hright : ((token ++ after).reverse.dropWhile isBlank).reverse = token := by
    rw [List.reverse_append, dropWhile_isBlank_append (by simpa using ha), List.reverse_reverse]
    intro c hc
    exact hends c (.inr (by simpa using hc))
  by_cases htoken : token = []
  · subst htoken
    have hall : (before ++ [] ++ after).dropWhile isBlank = [] := by
      rw [List.dropWhile_eq_nil_iff]
      intro c hc
      obtain hc | hc := List.mem_append.1 hc
      · exact hb c (by simpa using hc)
      · exact ha c hc
    rw [hall]
    rfl
  · rw [List.append_assoc, dropWhile_isBlank_append hb, hright]
    intro c hc
    rw [List.head?_append_of_ne_nil _ htoken] at hc
    exact hends c (.inl hc)

/-- A comment, or the lack of one, is stripped from a line whose rest has no comment marker. -/
theorem takeWhile_before_comment {l tail comment : List Char} (hl : '#' ∉ l)
    (htail : tail = [] ∨ tail = '#' :: comment) :
    (l ++ tail).takeWhile (fun c => c ≠ '#') = l := by
  have hall : ∀ c ∈ l, decide (c ≠ '#') = true := by
    intro c hc
    exact decide_eq_true fun h => hl (h ▸ hc)
  rw [List.takeWhile_append_of_pos hall]
  obtain rfl | rfl := htail <;> simp

/-- What is left of a line: its token. -/
theorem lineToken_eq_token {before token after tail comment : List Char}
    (hblank : ∀ c ∈ before ++ after, c = ' ' ∨ c = '\t') (hmark : '#' ∉ token)
    (hends : ∀ c, token.head? = some c ∨ token.getLast? = some c → isBlank c = false)
    (htail : tail = [] ∨ tail = '#' :: comment) :
    lineToken (before ++ token ++ after ++ tail) = token := by
  have hblank' : ∀ c ∈ before ++ after, isBlank c = true ∧ c ≠ '#' := by
    intro c hc
    obtain rfl | rfl := hblank c hc <;> decide
  have hl : '#' ∉ before ++ token ++ after := by
    simp only [List.mem_append, not_or]
    exact ⟨⟨fun h => (hblank' _ (List.mem_append_left _ h)).2 rfl, hmark⟩,
      fun h => (hblank' _ (List.mem_append_right _ h)).2 rfl⟩
  rw [lineToken, takeWhile_before_comment hl htail]
  exact trim_eq_token (fun c hc => (hblank' c (List.mem_append_left _ hc)).1)
    (fun c hc => (hblank' c (List.mem_append_right _ hc)).1) hends

/-- Settles O56: the line has no line feed (`significantTokens_line`), and its token is what stripping
leaves (`lineToken_eq_token`). -/
theorem significantTokensOfASource : Obligations.SignificantTokensOfASource := by
  refine ⟨rfl, fun before token after comment rest hblank hmark hfeed hcomment hends tail htail => ?_⟩
  have hline : '\n' ∉ before ++ token ++ after ++ tail := by
    have hspace : '\n' ∉ before ++ after := fun h => by simpa using hblank _ h
    simp only [List.mem_append, not_or] at hspace ⊢
    refine ⟨⟨⟨hspace.1, hfeed⟩, hspace.2⟩, ?_⟩
    obtain rfl | rfl := htail
    · exact List.not_mem_nil
    · simpa using hcomment
  rw [significantTokens_line hline, significantTokens_of_not_mem hline,
    lineToken_eq_token hblank hmark hends htail]
  exact ⟨rfl, rfl⟩

/-! ### The values of tokens (spec/30_encoding.md R90, the spec's decision D14) -/

/-- Base-2 digits alone have their value. -/
theorem binaryFrom_of_digits {t : List Char} (h : ∀ c ∈ t, c = '0' ∨ c = '1') (acc : Nat) :
    binaryFrom acc t = some (t.foldl (fun n c => 2 * n + if c = '1' then 1 else 0) acc) := by
  induction t generalizing acc with
  | nil => rfl
  | cons c t ih =>
    obtain ⟨hc, ht⟩ := List.forall_mem_cons.1 h
    obtain rfl | rfl := hc <;> exact ih ht _

/-- Only base-2 digits alone have a value as digits. -/
theorem digits_of_binaryFrom {t : List Char} {acc v : Nat} (h : binaryFrom acc t = some v) :
    ∀ c ∈ t, c = '0' ∨ c = '1' := by
  induction t generalizing acc with
  | nil => simp
  | cons c t ih =>
    obtain ⟨d, hd, hrest⟩ := Option.bind_eq_some_iff.1 h
    refine List.forall_mem_cons.2 ⟨?_, ih hrest⟩
    unfold bitOf at hd
    split_ifs at hd with h0 h1
    · exact .inl h0
    · exact .inr h1

theorem literalValue_of_digits {t : List Char} (h : BinaryDigits t) :
    literalValue t = some (digitsValue t) := by
  simp [literalValue, binaryFrom_of_digits h.2, digitsValue]

/-- A character that no literal can hold makes the token no literal. -/
theorem literalValue_of_bad_char {t : List Char} {c : Char} (hc : c ∈ t)
    (hbad : c ∉ ['0', '1', 'b', 'B', '_', '+', '-']) : literalValue t = none := by
  have hdigits : binaryFrom 0 t = none := by
    rw [Option.eq_none_iff_forall_ne_some]
    intro v hv
    obtain rfl | rfl := digits_of_binaryFrom hv c hc <;> simp at hbad
  have hall : ¬ t.all (fun c => ['0', '1', 'b', 'B', '_', '+', '-'].contains c) = true := by
    rw [List.all_eq_true]
    exact fun h => hbad (List.contains_iff_mem.1 (h c hc))
  rw [literalValue, hdigits]
  exact if_neg hall

theorem parseToken_of_digits {t : List Char} (h : BinaryDigits t) (hv : digitsValue t ≤ 255) :
    parseToken t = .ok (BitVec.ofNat 8 (digitsValue t)) := by
  simp [parseToken, literalValue_of_digits h, Nat.lt_succ_of_le hv]

/-- The tokens that never parse: a value above 255, or a character no literal can hold. -/
theorem parseToken_malformed {t : List Char} (h : BinaryDigits t ∧ 255 < digitsValue t ∨
    ∃ c ∈ t, c ∉ ['0', '1', 'b', 'B', '_', '+', '-']) : parseToken t = .error .malformedProgram := by
  obtain ⟨hdigits, hv⟩ | ⟨c, hc, hbad⟩ := h
  · simp [parseToken, literalValue_of_digits hdigits, Nat.not_lt.2 (Nat.succ_le_of_lt hv)]
  · simp [parseToken, literalValue_of_bad_char hc hbad]

/-- A token that does not parse is a malformed program, and nothing else. -/
theorem parseToken_cases (t : List Char) :
    (∃ v, parseToken t = .ok v) ∨ parseToken t = .error .malformedProgram := by
  unfold parseToken
  split
  · split_ifs
    · exact .inl ⟨_, rfl⟩
    · exact .inr rfl
  · exact .inr rfl

/-! ### The Loader's answer (spec/60_exceptions.md R192) -/

/-- The Loader parses the significant tokens in order. -/
theorem parseLines_eq_mapM (ls : List (List Char)) :
    parseLines ls = ((ls.map lineToken).filter fun t => !t.isEmpty).mapM parseToken := by
  induction ls with
  | nil => rfl
  | cons l ls ih =>
    rw [parseLines, List.map_cons]
    split_ifs with h
    · rw [List.filter_cons_of_neg (by simp [h]), ih]
    · rw [List.filter_cons_of_pos (by simp [h]), List.mapM_cons, ih]
      rfl

/-- Tokens that all parse give their values. -/
theorem mapM_parseToken_of_ok {ts : List (List Char)} {img : List Byte}
    (h : ts.map parseToken = img.map .ok) : ts.mapM parseToken = .ok img := by
  induction ts generalizing img with
  | nil =>
    obtain rfl : img = [] := by simpa using h.symm
    rfl
  | cons t ts ih =>
    cases img with
    | nil => simp at h
    | cons v img =>
      obtain ⟨hv, hrest⟩ := List.cons.inj h
      rw [List.mapM_cons, hv, ih hrest]
      rfl

/-- Tokens one of which does not parse give a malformed program. -/
theorem mapM_parseToken_of_error {ts : List (List Char)} {t : List Char} (ht : t ∈ ts)
    (h : parseToken t = .error .malformedProgram) :
    ts.mapM parseToken = .error .malformedProgram := by
  induction ts with
  | nil => exact absurd ht List.not_mem_nil
  | cons u ts ih =>
    rw [List.mapM_cons]
    obtain rfl | ht := List.mem_cons.1 ht
    · rw [h]
      rfl
    · obtain ⟨v, hv⟩ | hv := parseToken_cases u
      · rw [hv, ih ht]
        rfl
      · rw [hv]
        rfl

/-- Either every token parses, or one does not. -/
theorem parse_all_or_malformed (ts : List (List Char)) :
    (∃ img : List Byte, ts.map parseToken = img.map .ok) ∨
      ∃ t ∈ ts, parseToken t = .error .malformedProgram := by
  induction ts with
  | nil => exact .inl ⟨[], rfl⟩
  | cons t ts ih =>
    obtain ⟨v, hv⟩ | hv := parseToken_cases t
    · obtain ⟨img, himg⟩ | ⟨u, hu, hbad⟩ := ih
      · exact .inl ⟨v :: img, by simp [hv, himg]⟩
      · exact .inr ⟨u, .tail _ hu, hbad⟩
    · exact .inr ⟨t, .head _, hv⟩

theorem loadSource_of_error {text t : List Char} (ht : t ∈ significantTokens text)
    (h : parseToken t = .error .malformedProgram) :
    loadSource (some text) = .error .malformedProgram := by
  have hparse : parseLines (splitLines text) = .error .malformedProgram :=
    (parseLines_eq_mapM _).trans (mapM_parseToken_of_error ht h)
  rw [loadSource, hparse]
  rfl

/-- When every significant token parses, the number of tokens decides the answer. -/
theorem loadSource_of_ok {text : List Char} {img : List Byte}
    (h : (significantTokens text).map parseToken = img.map .ok) :
    loadSource (some text) = if img.length ≤ 256 then .ok img else .error .programTooLarge := by
  have hparse : parseLines (splitLines text) = .ok img :=
    (parseLines_eq_mapM _).trans (mapM_parseToken_of_ok h)
  rw [loadSource, hparse]
  rfl

/-- Settles O54: the tokens all parse (`loadSource_of_ok`) or one does not (`loadSource_of_error`). -/
theorem loaderAnswersAnImageOrALoadFault : Obligations.LoaderAnswersAnImageOrALoadFault := by
  refine ⟨rfl, rfl, rfl, rfl, fun t => parseToken_of_digits, fun text => ⟨fun t ht hbad => ?malformed,
    fun img himg => ⟨fun hle => ?fits, fun hgt => ?tooLarge⟩, ?answers⟩⟩
  case malformed => exact loadSource_of_error ht (parseToken_malformed hbad)
  case fits => exact ⟨(loadSource_of_ok himg).trans (if_pos hle), _, boot_of_le hle⟩
  case tooLarge => exact (loadSource_of_ok himg).trans (if_neg (Nat.not_le.2 hgt))
  case answers =>
    obtain ⟨img, himg⟩ | ⟨t, ht, hbad⟩ := parse_all_or_malformed (significantTokens text)
    · rw [loadSource_of_ok himg]
      split_ifs
      · exact .inl ⟨img, rfl⟩
      · exact .inr (.inr rfl)
    · exact .inr (.inl (loadSource_of_error ht hbad))

/-! ### An image written as base-2 tokens -/

/-- The first `n` of the eight base-2 digits of a byte, most significant first. -/
def bitDigits (v : Byte) (n : Nat) : List Char :=
  (List.range n).map fun k => if v.getLsbD (7 - k) then '1' else '0'

theorem mem_bitDigits {v : Byte} {n : Nat} {c : Char} (h : c ∈ bitDigits v n) : c = '0' ∨ c = '1' := by
  obtain ⟨k, -, rfl⟩ := List.mem_map.1 h
  split_ifs
  · exact .inr rfl
  · exact .inl rfl

theorem binaryDigits_bitDigits (v : Byte) : BinaryDigits (bitDigits v 8) :=
  ⟨List.cons_ne_nil _ _, fun _ => mem_bitDigits⟩

/-- The first `n` digits of a byte are its value without the `8 - n` low bits. -/
theorem digitsValue_bitDigits (v : Byte) {n : Nat} (h : n ≤ 8) :
    digitsValue (bitDigits v n) = v.toNat / 2 ^ (8 - n) := by
  induction n with
  | zero =>
    have hv : v.toNat < 2 ^ 8 := v.isLt
    exact (Nat.div_eq_of_lt hv).symm
  | succ n ih =>
    have hprev := ih (by omega)
    rw [show 8 - n = (7 - n) + 1 by omega, pow_succ, ← Nat.div_div_eq_div_mul] at hprev
    have hbit : (if (if v.getLsbD (7 - n) then '1' else '0') = '1' then 1 else 0)
        = v.toNat / 2 ^ (7 - n) % 2 := by
      rw [BitVec.getLsbD, Nat.testBit_eq_decide_div_mod_eq]
      obtain h | h := Nat.mod_two_eq_zero_or_one (v.toNat / 2 ^ (7 - n)) <;> simp [h]
    simp only [digitsValue, bitDigits, List.range_succ, List.map_append, List.foldl_append,
      List.map_singleton, List.foldl_cons, List.foldl_nil] at hprev ⊢
    rw [hprev, hbit, show 8 - (n + 1) = 7 - n by omega]
    omega

theorem parseToken_bitDigits (v : Byte) : parseToken (bitDigits v 8) = .ok v := by
  have hvalue : digitsValue (bitDigits v 8) = v.toNat := by
    rw [digitsValue_bitDigits v (le_refl 8), Nat.sub_self, pow_zero, Nat.div_one]
  have hv : v.toNat < 256 := v.isLt
  rw [parseToken_of_digits (binaryDigits_bitDigits v) (by omega), hvalue, BitVec.ofNat_toNat,
    BitVec.setWidth_eq]

/-- The text of one byte: its eight digits, a space and a comment. -/
def imageLine (comment : List Char) (v : Byte) : List Char :=
  bitDigits v 8 ++ [' ', '#'] ++ comment ++ ['\n']

/-- The token of a written line is the digits of its byte. -/
theorem significantTokens_imageLine {comment : List Char} (hcomment : '\n' ∉ comment) (v : Byte)
    (rest : List Char) : significantTokens (imageLine comment v ++ rest) =
      bitDigits v 8 :: significantTokens rest := by
  have hnot {c : Char} (h0 : c ≠ '0') (h1 : c ≠ '1') : c ∉ bitDigits v 8 :=
    fun h => (mem_bitDigits h).elim h0 h1
  have hends : ∀ c, (bitDigits v 8).head? = some c ∨ (bitDigits v 8).getLast? = some c →
      isBlank c = false := by
    intro c hc
    obtain rfl | rfl := mem_bitDigits (hc.elim List.mem_of_head? List.mem_of_getLast?) <;> rfl
  have hline : imageLine comment v ++ rest =
      [] ++ bitDigits v 8 ++ [' '] ++ '#' :: comment ++ '\n' :: rest := by simp [imageLine]
  rw [hline, (significantTokensOfASource.2 [] (bitDigits v 8) [' '] comment rest (by simp)
    (hnot (by decide) (by decide)) (hnot (by decide) (by decide)) hcomment hends _ (.inr rfl)).1,
    if_neg (binaryDigits_bitDigits v).1]
  rfl

theorem significantTokens_image {comment : List Char} (hcomment : '\n' ∉ comment) (img : List Byte) :
    significantTokens (img.flatMap (imageLine comment)) = img.map fun v => bitDigits v 8 := by
  induction img with
  | nil => rfl
  | cons v img ih => rw [List.flatMap_cons, significantTokens_imageLine hcomment, ih, List.map_cons]

/-- Settles O55: the tokens of the written text are the digits of the image's bytes
(`significantTokens_image`), and each parses to its byte. -/
theorem loaderReadsBackWrittenImages : Obligations.LoaderReadsBackWrittenImages := by
  intro img comment hcomment hlen
  have hparse : (significantTokens (img.flatMap (imageLine comment))).map parseToken = img.map .ok := by
    rw [significantTokens_image hcomment, List.map_map]
    exact List.map_congr_left fun v _ => parseToken_bitDigits v
  exact (loadSource_of_ok hparse).trans (if_pos hlen)

end Sys2Proof.Machine
